-- ==== Sys2Proof/Word.lean ====
section
/-! DEFINITION. The value types of the engine: bytes, opcode words, addresses and register numbers
(spec 00_scope.md R7, R10). Every value is unsigned. -/

namespace Sys2Proof

/-- `u8`: a data register, an immediate `nn`, a timer, a memory cell (R10). -/
abbrev Byte := BitVec 8

/-- A 16-bit opcode word, bit 0 least significant (R9, R70). -/
abbrev Word := BitVec 16

/-- `u16` as an address: PC, I and the call-stack entries (R10, 20_memory.md R52). -/
abbrev Addr := BitVec 16

/-- A 12-bit address immediate `nnn` (30_encoding.md R71, R73). -/
abbrev Addr12 := BitVec 12

/-- The number of a data register V0..VF (10_state.md R20). -/
abbrev Reg := Fin 16

end Sys2Proof
end

