-- ==== Sys2Proof/Machine/Flags.lean ====
section
/-! DEFINITION. The bytes written to VF as a flag (spec 42_arithmetic.md R141, 44_display.md R194), each
computed from the operands as they were at the start of the instruction. -/

namespace Sys2Proof.Machine

open Sys2Proof

/-- A boolean flag as a byte: 1 or 0 (R141; for the collision flag the spec's own decision D4). -/
def flagByte (c : Bool) : Byte := if c then 1 else 0

/-- The carry of 8xy4: the unsigned sum exceeds 255 (R148). -/
def carryFlag (a b : Byte) : Byte := flagByte (decide (255 < a.toNat + b.toNat))

/-- The no-borrow flag of `minuend - subtrahend`: the subtrahend does not exceed the minuend
(R149, R151). -/
def noBorrowFlag (minuend subtrahend : Byte) : Byte :=
  flagByte (decide (subtrahend.toNat ≤ minuend.toNat))

/-- The flag of 8xy6: bit 0 of the operand (R150). -/
def shiftRightFlag (a : Byte) : Byte := a &&& 0x01

/-- The flag of 8xyE: bit 7 masked in place, 0x80 or 0x00, not normalised (R152). -/
def shiftLeftFlag (a : Byte) : Byte := a &&& 0x80

/-- The flag of Dxyn: 1 when a pixel was erased, else 0 (R194, D4). -/
def collisionFlag (collided : Bool) : Byte := flagByte collided

end Sys2Proof.Machine
end

