-- ==== Sys2Proof/Syntax.lean ====
section
/-! DEFINITION. The instructions: one constructor for each of the 34 rows of spec/opcode_table.json
(30_encoding.md R74), in the table's order, with the row's operand fields (R71, R73). -/

namespace Sys2Proof

/-- The 34 instructions. `x`, `y` are register numbers, `nn` an 8-bit and `nnn` a 12-bit immediate,
`n` the row count of `drw`. The `y` of `shr` and `shl` is decoded but unused (R73). -/
inductive Instr where
  /-- 00E0 -/
  | cls
  /-- 00EE -/
  | ret
  /-- 1nnn -/
  | jp (nnn : Addr12)
  /-- 2nnn -/
  | call (nnn : Addr12)
  /-- 3xnn -/
  | seImm (x : Reg) (nn : Byte)
  /-- 4xnn -/
  | sneImm (x : Reg) (nn : Byte)
  /-- 5xy0 -/
  | seReg (x y : Reg)
  /-- 6xnn -/
  | ldImm (x : Reg) (nn : Byte)
  /-- 7xnn -/
  | addImm (x : Reg) (nn : Byte)
  /-- 8xy0 -/
  | ldReg (x y : Reg)
  /-- 8xy1 -/
  | orReg (x y : Reg)
  /-- 8xy2 -/
  | andReg (x y : Reg)
  /-- 8xy3 -/
  | xorReg (x y : Reg)
  /-- 8xy4 -/
  | addReg (x y : Reg)
  /-- 8xy5 -/
  | sub (x y : Reg)
  /-- 8xy6 -/
  | shr (x y : Reg)
  /-- 8xy7 -/
  | subn (x y : Reg)
  /-- 8xyE -/
  | shl (x y : Reg)
  /-- 9xy0 -/
  | sneReg (x y : Reg)
  /-- Annn -/
  | ldI (nnn : Addr12)
  /-- Bnnn -/
  | jpV0 (nnn : Addr12)
  /-- Cxnn -/
  | rnd (x : Reg) (nn : Byte)
  /-- Dxyn -/
  | drw (x y : Reg) (n : Nat)
  /-- Ex9E -/
  | skp (x : Reg)
  /-- ExA1 -/
  | sknp (x : Reg)
  /-- Fx07 -/
  | ldVxDt (x : Reg)
  /-- Fx0A -/
  | waitKeyEq (x : Reg)
  /-- Fx15 -/
  | ldDtVx (x : Reg)
  /-- Fx18 -/
  | ldStVx (x : Reg)
  /-- Fx1E -/
  | addIVx (x : Reg)
  /-- Fx29 -/
  | ldFVx (x : Reg)
  /-- Fx33 -/
  | ldBVx (x : Reg)
  /-- Fx55 -/
  | ldMemVx (x : Reg)
  /-- Fx65 -/
  | ldVxMem (x : Reg)
  deriving DecidableEq, Repr

end Sys2Proof
end

