-- ==== Sys2Proof/Decode.lean ====
section
/-! DEFINITION. Decoding and encoding of the 16-bit words (spec 30_encoding.md R70-R77): the fields of a
word, a total decoder that rejects by name, the encoder written from the formats of R72, the opcode table
of R74 as data, and the host's `decodeTableWord`. -/

namespace Sys2Proof

/-! ### The fields of a word (R71) -/

/-- `p4 = op[15:12]`, the major opcode. -/
def fieldP4 (w : Word) : BitVec 4 := w.extractLsb' 12 4

/-- `x = op[11:8]`, the first register number. -/
def fieldX (w : Word) : Reg := (w.extractLsb' 8 4).toFin

/-- `y = op[7:4]`, the second register number. -/
def fieldY (w : Word) : Reg := (w.extractLsb' 4 4).toFin

/-- `n = op[3:0]`, the row count of Dxyn or a sub-opcode. -/
def fieldN (w : Word) : BitVec 4 := w.extractLsb' 0 4

/-- `nn = op[7:0]`, an 8-bit immediate or a sub-opcode byte. -/
def fieldNN (w : Word) : Byte := w.extractLsb' 0 8

/-- `nnn = op[11:0]`, a 12-bit address. -/
def fieldNNN (w : Word) : Addr12 := w.extractLsb' 0 12

/-! ### The decoder -/

/-- Why bytes are no instruction of the table. `unrecognised` is no error of the machine: such a word
executes as the no-op of 40_cycle.md R96. -/
inductive DecodeError where
  /-- A 16-bit word that no row of R74 matches (R75). -/
  | unrecognised (w : Word)
  /-- Fewer than two bytes: no opcode word (R70). -/
  | truncated
  deriving DecidableEq, Repr

/-- Words 0nnn: only 00E0 and 00EE are rows (R74 rows 1 and 2, R76). -/
def decode0 (w : Word) : Except DecodeError Instr :=
  if w = 0x00E0 then .ok .cls
  else if w = 0x00EE then .ok .ret
  else .error (.unrecognised w)

/-- Words 8xyN, by the sub-opcode N (R74 rows 10 to 18). -/
def decode8 (w : Word) : Except DecodeError Instr :=
  let x := fieldX w
  let y := fieldY w
  let n := fieldN w
  if n = 0x0 then .ok (.ldReg x y)
  else if n = 0x1 then .ok (.orReg x y)
  else if n = 0x2 then .ok (.andReg x y)
  else if n = 0x3 then .ok (.xorReg x y)
  else if n = 0x4 then .ok (.addReg x y)
  else if n = 0x5 then .ok (.sub x y)
  else if n = 0x6 then .ok (.shr x y)
  else if n = 0x7 then .ok (.subn x y)
  else if n = 0xE then .ok (.shl x y)
  else .error (.unrecognised w)

/-- Words ExNN, by the sub-opcode byte (R74 rows 24 and 25). -/
def decodeE (w : Word) : Except DecodeError Instr :=
  let x := fieldX w
  let nn := fieldNN w
  if nn = 0x9E then .ok (.skp x)
  else if nn = 0xA1 then .ok (.sknp x)
  else .error (.unrecognised w)

/-- Words FxNN, by the sub-opcode byte (R74 rows 26 to 34). -/
def decodeF (w : Word) : Except DecodeError Instr :=
  let x := fieldX w
  let nn := fieldNN w
  if nn = 0x07 then .ok (.ldVxDt x)
  else if nn = 0x0A then .ok (.waitKeyEq x)
  else if nn = 0x15 then .ok (.ldDtVx x)
  else if nn = 0x18 then .ok (.ldStVx x)
  else if nn = 0x1E then .ok (.addIVx x)
  else if nn = 0x29 then .ok (.ldFVx x)
  else if nn = 0x33 then .ok (.ldBVx x)
  else if nn = 0x55 then .ok (.ldMemVx x)
  else if nn = 0x65 then .ok (.ldVxMem x)
  else .error (.unrecognised w)

/-- The instruction of a 16-bit word, or its rejection by name (R74, R75, R77). Every fixed digit of a
row must match (D7). -/
def decodeWord (w : Word) : Except DecodeError Instr :=
  match (fieldP4 w).toNat with
  | 0x0 => decode0 w
  | 0x1 => .ok (.jp (fieldNNN w))
  | 0x2 => .ok (.call (fieldNNN w))
  | 0x3 => .ok (.seImm (fieldX w) (fieldNN w))
  | 0x4 => .ok (.sneImm (fieldX w) (fieldNN w))
  | 0x5 => if fieldN w = 0x0 then .ok (.seReg (fieldX w) (fieldY w)) else .error (.unrecognised w)
  | 0x6 => .ok (.ldImm (fieldX w) (fieldNN w))
  | 0x7 => .ok (.addImm (fieldX w) (fieldNN w))
  | 0x8 => decode8 w
  | 0x9 => if fieldN w = 0x0 then .ok (.sneReg (fieldX w) (fieldY w)) else .error (.unrecognised w)
  | 0xA => .ok (.ldI (fieldNNN w))
  | 0xB => .ok (.jpV0 (fieldNNN w))
  | 0xC => .ok (.rnd (fieldX w) (fieldNN w))
  | 0xD => .ok (.drw (fieldX w) (fieldY w) (fieldN w).toNat)
  | 0xE => decodeE w
  | 0xF => decodeF w
  | _ => .error (.unrecognised w)

/-- Two bytes as an opcode word: the byte at the lower address is the high byte (20_memory.md R55). -/
def wordOfBytes (hi lo : Byte) : Word := hi.setWidth 16 <<< 8 ||| lo.setWidth 16

/-- The high byte of a word, stored at the lower address (20_memory.md R55). -/
def highByte (w : Word) : Byte := w.extractLsb' 8 8

/-- The low byte of a word (20_memory.md R55). -/
def lowByte (w : Word) : Byte := w.extractLsb' 0 8

/-- The first instruction of a byte sequence and the bytes after it; total on any bytes (R77). -/
def decode : List Byte → Except DecodeError (Instr × List Byte)
  | hi :: lo :: rest =>
    match decodeWord (wordOfBytes hi lo) with
    | .ok i => .ok (i, rest)
    | .error e => .error e
  | [_] => .error .truncated
  | [] => .error .truncated

/-! ### The encoder, by the formats of R72 -/

/-- A register number as its 4-bit field. -/
def regField (x : Reg) : BitVec 4 := BitVec.ofFin x

/-- Format NNN. -/
def formNNN (p4 : BitVec 4) (nnn : Addr12) : Word :=
  p4.setWidth 16 <<< 12 ||| nnn.setWidth 16

/-- Format XNN; with a sub-opcode byte for `nn` also format X. -/
def formXNN (p4 : BitVec 4) (x : Reg) (nn : Byte) : Word :=
  p4.setWidth 16 <<< 12 ||| (regField x).setWidth 16 <<< 8 ||| nn.setWidth 16

/-- Formats XY and XYN. -/
def formXYN (p4 : BitVec 4) (x y : Reg) (n : BitVec 4) : Word :=
  p4.setWidth 16 <<< 12 ||| (regField x).setWidth 16 <<< 8 ||| (regField y).setWidth 16 <<< 4
    ||| n.setWidth 16

/-- The word of an instruction (R72, R74); meant for well-formed ones. -/
def encode : Instr → Word
  | .cls => 0x00E0
  | .ret => 0x00EE
  | .jp nnn => formNNN 0x1 nnn
  | .call nnn => formNNN 0x2 nnn
  | .seImm x nn => formXNN 0x3 x nn
  | .sneImm x nn => formXNN 0x4 x nn
  | .seReg x y => formXYN 0x5 x y 0x0
  | .ldImm x nn => formXNN 0x6 x nn
  | .addImm x nn => formXNN 0x7 x nn
  | .ldReg x y => formXYN 0x8 x y 0x0
  | .orReg x y => formXYN 0x8 x y 0x1
  | .andReg x y => formXYN 0x8 x y 0x2
  | .xorReg x y => formXYN 0x8 x y 0x3
  | .addReg x y => formXYN 0x8 x y 0x4
  | .sub x y => formXYN 0x8 x y 0x5
  | .shr x y => formXYN 0x8 x y 0x6
  | .subn x y => formXYN 0x8 x y 0x7
  | .shl x y => formXYN 0x8 x y 0xE
  | .sneReg x y => formXYN 0x9 x y 0x0
  | .ldI nnn => formNNN 0xA nnn
  | .jpV0 nnn => formNNN 0xB nnn
  | .rnd x nn => formXNN 0xC x nn
  | .drw x y n => formXYN 0xD x y (BitVec.ofNat 4 n)
  | .skp x => formXNN 0xE x 0x9E
  | .sknp x => formXNN 0xE x 0xA1
  | .ldVxDt x => formXNN 0xF x 0x07
  | .waitKeyEq x => formXNN 0xF x 0x0A
  | .ldDtVx x => formXNN 0xF x 0x15
  | .ldStVx x => formXNN 0xF x 0x18
  | .addIVx x => formXNN 0xF x 0x1E
  | .ldFVx x => formXNN 0xF x 0x29
  | .ldBVx x => formXNN 0xF x 0x33
  | .ldMemVx x => formXNN 0xF x 0x55
  | .ldVxMem x => formXNN 0xF x 0x65

/-! ### The opcode table (R74) -/

/-- One row of R74: a word `op` is of the row when `op &&& mask = pattern`. -/
structure OpcodeRow where
  mnemonic : String
  mask     : Word
  pattern  : Word
  deriving DecidableEq, Repr

/-- The row of an instruction (R74). -/
def Instr.row : Instr → OpcodeRow
  | .cls => ⟨"CLS", 0xFFFF, 0x00E0⟩
  | .ret => ⟨"RET", 0xFFFF, 0x00EE⟩
  | .jp _ => ⟨"JP", 0xF000, 0x1000⟩
  | .call _ => ⟨"CALL", 0xF000, 0x2000⟩
  | .seImm _ _ => ⟨"SE_IMM", 0xF000, 0x3000⟩
  | .sneImm _ _ => ⟨"SNE_IMM", 0xF000, 0x4000⟩
  | .seReg _ _ => ⟨"SE_REG", 0xF00F, 0x5000⟩
  | .ldImm _ _ => ⟨"LD_IMM", 0xF000, 0x6000⟩
  | .addImm _ _ => ⟨"ADD_IMM", 0xF000, 0x7000⟩
  | .ldReg _ _ => ⟨"LD_REG", 0xF00F, 0x8000⟩
  | .orReg _ _ => ⟨"OR", 0xF00F, 0x8001⟩
  | .andReg _ _ => ⟨"AND", 0xF00F, 0x8002⟩
  | .xorReg _ _ => ⟨"XOR", 0xF00F, 0x8003⟩
  | .addReg _ _ => ⟨"ADD_REG", 0xF00F, 0x8004⟩
  | .sub _ _ => ⟨"SUB", 0xF00F, 0x8005⟩
  | .shr _ _ => ⟨"SHR", 0xF00F, 0x8006⟩
  | .subn _ _ => ⟨"SUBN", 0xF00F, 0x8007⟩
  | .shl _ _ => ⟨"SHL", 0xF00F, 0x800E⟩
  | .sneReg _ _ => ⟨"SNE_REG", 0xF00F, 0x9000⟩
  | .ldI _ => ⟨"LD_I", 0xF000, 0xA000⟩
  | .jpV0 _ => ⟨"JP_V0", 0xF000, 0xB000⟩
  | .rnd _ _ => ⟨"RND", 0xF000, 0xC000⟩
  | .drw _ _ _ => ⟨"DRW", 0xF000, 0xD000⟩
  | .skp _ => ⟨"SKP", 0xF0FF, 0xE09E⟩
  | .sknp _ => ⟨"SKNP", 0xF0FF, 0xE0A1⟩
  | .ldVxDt _ => ⟨"LD_VX_DT", 0xF0FF, 0xF007⟩
  | .waitKeyEq _ => ⟨"WAIT_KEY_EQ", 0xF0FF, 0xF00A⟩
  | .ldDtVx _ => ⟨"LD_DT_VX", 0xF0FF, 0xF015⟩
  | .ldStVx _ => ⟨"LD_ST_VX", 0xF0FF, 0xF018⟩
  | .addIVx _ => ⟨"ADD_I_VX", 0xF0FF, 0xF01E⟩
  | .ldFVx _ => ⟨"LD_F_VX", 0xF0FF, 0xF029⟩
  | .ldBVx _ => ⟨"LD_B_VX", 0xF0FF, 0xF033⟩
  | .ldMemVx _ => ⟨"LD_MEM_VX", 0xF0FF, 0xF055⟩
  | .ldVxMem _ => ⟨"LD_VX_MEM", 0xF0FF, 0xF065⟩

/-- The word is of the row (R74). -/
def OpcodeRow.matchesWord (r : OpcodeRow) (w : Word) : Bool := decide (w &&& r.mask = r.pattern)

/-- One instruction of every row, in the table's order: the rows' representatives. -/
def rowInstrs : List Instr :=
  [.cls, .ret, .jp 0, .call 0, .seImm 0 0, .sneImm 0 0, .seReg 0 0, .ldImm 0 0, .addImm 0 0,
   .ldReg 0 0, .orReg 0 0, .andReg 0 0, .xorReg 0 0, .addReg 0 0, .sub 0 0, .shr 0 0, .subn 0 0]
  ++ [.shl 0 0, .sneReg 0 0, .ldI 0, .jpV0 0, .rnd 0 0, .drw 0 0 0, .skp 0, .sknp 0, .ldVxDt 0,
   .waitKeyEq 0, .ldDtVx 0, .ldStVx 0, .addIVx 0, .ldFVx 0, .ldBVx 0, .ldMemVx 0, .ldVxMem 0]

/-- The complete opcode table of R74, its 34 rows in order. -/
def opcodeTable : List OpcodeRow := rowInstrs.map Instr.row

/-! ### The host's entry -/

/-- The bytes, in memory order, of the instruction whose `nbits` table bits are `w`; every bit above
`nbits` is 0. -/
def tableBytes (nbits w : Nat) : List Byte :=
  let op : Word := BitVec.ofNat 16 (w % 2 ^ nbits)
  [highByte op, lowByte op]

/-- The instruction the decoder reads from a word numbered as spec/opcode_table.json numbers it. -/
def decodeTableWord (nbits w : Nat) : Option Instr :=
  match decode (tableBytes nbits w) with
  | .ok (i, _) => some i
  | .error _ => none

end Sys2Proof
end

