-- ==== Sys2Proof/Config.lean ====
section
/-! DEFINITION. What is fixed for one machine (spec 00_scope.md R7, R8): the parameters the spec
leaves open (FONT, MEM_INIT, STACK_LIMIT), the one free value (the random byte), and the fixed sizes. -/

namespace Sys2Proof.Config

/-- The memory has 4096 bytes, addresses 0x000..0xFFF (R7, 20_memory.md R50). -/
def memSize : Nat := 0x1000

/-- The font region is bytes 0..79: 16 glyphs of 5 bytes (R7, 20_memory.md R59). -/
def fontSize : Nat := 80

/-- The program start: the reset value of PC and the address `load` writes from (R7). -/
def programStart : Addr := 0x200

/-- Columns of the frame buffer (R7). -/
def screenWidth : Nat := 64

/-- Rows of the frame buffer (R7). -/
def screenHeight : Nat := 32

/-- The byte that the k-th execution of Cxnn draws from the random-byte source. FREE VALUE: the spec
makes the draw a free input under no law (42_arithmetic.md R153, D15), so nothing is said of it
(DESIGN CHOICE of form, log entry 5). -/
opaque randomByte : Nat → Byte

/-- The parameters of the model that the spec leaves open (R8), as plain data. They are fixed for a
machine: no step and no host operation changes them (DESIGN CHOICE, log entry 1).
`memInit` lists the bytes of MEM_INIT that are not 0x00. -/
structure Params where
  font       : Vector Byte 80
  memInit    : List Host.Cell
  stackLimit : Option Nat
  deriving DecidableEq, Repr, Inhabited

/-- Glyphs 0..7 of the suggested FONT instance (93_implementation_defined.md K4). -/
def glyphsLow : Vector Byte 40 :=
  #v[0xF0, 0x90, 0x90, 0x90, 0xF0,  0x20, 0x60, 0x20, 0x20, 0x70,
     0xF0, 0x10, 0xF0, 0x80, 0xF0,  0xF0, 0x10, 0xF0, 0x10, 0xF0,
     0x90, 0x90, 0xF0, 0x10, 0x10,  0xF0, 0x80, 0xF0, 0x10, 0xF0,
     0xF0, 0x80, 0xF0, 0x90, 0xF0,  0xF0, 0x10, 0x20, 0x40, 0x40]

/-- Glyphs 8..F of the suggested FONT instance (93_implementation_defined.md K4). -/
def glyphsHigh : Vector Byte 40 :=
  #v[0xF0, 0x90, 0xF0, 0x90, 0xF0,  0xF0, 0x90, 0xF0, 0x10, 0xF0,
     0xF0, 0x90, 0xF0, 0x90, 0x90,  0xE0, 0x90, 0xE0, 0x90, 0xE0,
     0xF0, 0x80, 0x80, 0x80, 0xF0,  0xE0, 0x90, 0x90, 0x90, 0xE0,
     0xF0, 0x80, 0xF0, 0x80, 0xF0,  0xF0, 0x80, 0xF0, 0x80, 0x80]

/-- The suggested FONT instance. PRESUMED, log entry 2: general knowledge, not in the source. -/
def suggestedFont : Vector Byte 80 := glyphsLow ++ glyphsHigh

/-- The parameters of the machine `State.reset`: the suggested font (PRESUMED, log entry 2), MEM_INIT
all 0x00 (DESIGN CHOICE, log entry 3), no stack limit (the spec's default, log entry 4). -/
def defaultParams : Params where
  font := suggestedFont
  memInit := []
  stackLimit := none

end Sys2Proof.Config
end

