-- ==== Sys2Proof/Machine/State.lean ====
section
/-! DEFINITION. The state of the engine (spec 10_state.md), as plain data, the reasons a tick can stop,
and the state after reset (R36, 70_reset_and_hazards.md R260, R261). -/

namespace Sys2Proof.Machine

open Sys2Proof

/-- What a memory access was for; recorded by `memoryOutOfRange` (60_exceptions.md R232, D23). -/
inductive Access where
  | fetch
  | read
  | write
  deriving DecidableEq, Repr, Inhabited

/-- A fault record: the kind, the PC of the faulting tick and the kind's info (60_exceptions.md R230).
Each ends the tick and the run until a reset (40_cycle.md R101). -/
inductive Fault where
  /-- Raised by 00EE on an empty STACK (R231). Safe: the source itself requires it. -/
  | stackUnderflow (pc : Addr)
  /-- Raised by the fetch, Dxyn, Fx33, Fx55 and Fx65 on an access at `addr ≥ 0x1000` (R232). Safe: the
  spec's own decision D1, a stop where the software may go on. -/
  | memoryOutOfRange (pc : Addr) (addr : Addr) (access : Access)
  /-- Raised by 2nnn when STACK_LIMIT is some k and STACK holds k entries (R233). Safe: never with the
  default limit none. -/
  | stackOverflow (pc : Addr)
  deriving DecidableEq, Repr, Inhabited

/-- Why an operation has no meaning. -/
inductive Refusal where
  /-- Raised by an arm of `exec` whose instruction has no meaning yet; no arm of this model does. Safe. -/
  | notModelled (mnemonic : String)
  /-- Raised by the host operation `load` for a ROM that ends past the memory
  (70_reset_and_hazards.md R263, D16). Safe: the spec gives such a load no meaning. -/
  | loadPastEnd (length : Nat)
  /-- Raised by the host operation `set_key` for a code outside 0..15 (60_exceptions.md R240, D17).
  Safe: the spec gives such a code no meaning. -/
  | keyCodeOutOfRange (code : Nat)
  deriving DecidableEq, Repr

/-- The memory as (address, byte) pairs: the bytes that differ from the reset contents, addresses
strictly rising (`Memory.wf`). -/
abbrev Memory := List Host.Cell

/-- The frame buffer: 32 rows of 64 pixels; row y holds the pixels of columns 0..63 (R30). -/
abbrev FrameBuffer := Vector (Vector Bool 64) 32

/-- The whole state: every element of 10_state.md R36, the parameters the spec leaves open, and the
model's own counter of random draws. -/
structure State where
  /-- V0..VF (R20). -/
  v      : Vector Byte 16
  /-- The index register I (R23). -/
  i      : Addr
  /-- The program counter PC (R24). -/
  pc     : Addr
  /-- The call stack STACK, most recently pushed entry first (R25). -/
  stack  : List Addr
  /-- The delay timer DT (R26). -/
  dt     : Byte
  /-- The sound timer ST (R27). -/
  st     : Byte
  /-- The sound flag SND (R28). -/
  snd    : Bool
  /-- The keypad latch KEY (R29). -/
  key    : Option (Fin 16)
  /-- The frame buffer FB (R30). -/
  fb     : FrameBuffer
  /-- The memory (R31). -/
  mem    : Memory
  /-- FAULT (R32). -/
  fault  : Option Fault
  /-- FONT, MEM_INIT and STACK_LIMIT (00_scope.md R8); fixed (log entry 1). -/
  params : Config.Params
  /-- The model's own: how many random bytes have been drawn (log entry 5). -/
  draws  : Nat
  deriving DecidableEq, Repr, Inhabited

/-- A frame buffer with every pixel 0. -/
def FrameBuffer.dark : FrameBuffer := Vector.replicate 32 (Vector.replicate 64 false)

/-- The state right after creation, for any FONT, MEM_INIT and STACK_LIMIT (R36,
70_reset_and_hazards.md R260, R261). I = 0, SND off and KEY none are the spec's own decisions D9, D10,
D11 (log entry 6); `draws` 0 is a DESIGN CHOICE (log entry 5). -/
def State.resetWith (p : Config.Params) : State where
  v := Vector.replicate 16 0
  i := 0
  pc := Config.programStart
  stack := []
  dt := 0
  st := 0
  snd := false
  key := none
  fb := FrameBuffer.dark
  mem := []
  fault := none
  params := p
  draws := 0

/-- The machine right after reset, with the parameters of `Config.defaultParams` (log entries 2 to 4). -/
def State.reset : State := State.resetWith Config.defaultParams

end Sys2Proof.Machine

namespace Sys2Proof.Config

/-- The elements of the state after a tick that raised a fault. FREE VALUE: the spec leaves them
unspecified (40_cycle.md R101, D2), so nothing is said of them (log entry 8). -/
opaque stateAfterFault : Machine.State → Machine.Fault → Machine.State

end Sys2Proof.Config
end

