-- ==== Sys2Proof/Machine/Ops.lean ====
section
/-! DEFINITION. The named operations every meaning is written over: registers, memory, the call stack,
raising a fault, the program-counter policy, and the first steps of the tick (fetch and timers). -/

namespace Sys2Proof.Machine

open Sys2Proof

/-! ### Faults (60_exceptions.md R230, R236-R238) -/

/-- Raising a fault: the tick ends in it. Nothing is saved, no mode changes, control goes nowhere
(R237). There is no return from a fault: only a reset leads on (R238). Every fault goes through here. -/
def raise (r : Fault) : Host.Outcome State Fault Refusal := .fault r

/-! ### Data registers (10_state.md R20, R21) -/

/-- VF, the register that is also the flag (R21). -/
def regVF : Reg := 0xF

/-- `V[x]`. -/
def getV (s : State) (x : Reg) : Byte := s.v[x]

/-- `V[x] <- b`. No register is hard-wired. -/
def setV (s : State) (x : Reg) (b : Byte) : State := { s with v := s.v.set x b }

/-- `V[k] <- b0, V[k+1] <- b1, …` in increasing order (43_index_memory.md R176). -/
def setRegsFrom (k : Nat) : List Byte → State → State
  | [], s => s
  | b :: bs, s => setRegsFrom (k + 1) bs (setV s (Fin.ofNat 16 k) b)

/-- `V[0], …, V[x]` (43_index_memory.md R175). -/
def regsUpTo (s : State) (x : Reg) : List Byte :=
  (List.range (x.val + 1)).map fun k => getV s (Fin.ofNat 16 k)

/-! ### Memory (20_memory.md R50-R58) -/

/-- MEM_INIT at an address: the listed byte, 0x00 where none is listed (log entry 3). -/
def initImageByte : List Host.Cell → Nat → Byte
  | [], _ => 0
  | (k, b) :: m, a => if k = a then b else initImageByte m a

/-- The reset contents of memory: FONT at 0x000-0x04F, MEM_INIT from 0x050 (10_state.md R31). This is
what an address that `State.mem` does not list reads as. -/
def initByte (p : Config.Params) (a : Nat) : Byte :=
  if h : a < 80 then p.font[a] else initImageByte p.memInit a

/-- The listed byte at an address. -/
def memLookup : Memory → Nat → Option Byte
  | [], _ => none
  | (k, b) :: m, a => if k = a then some b else memLookup m a

/-- List `(a, b)` at its place, in place of an entry for `a`. -/
def memInsert (a : Nat) (b : Byte) : Memory → Memory
  | [] => [(a, b)]
  | (k, c) :: m =>
    if a < k then (a, b) :: (k, c) :: m
    else if a = k then (a, b) :: m
    else (k, c) :: memInsert a b m

/-- Drop what is listed for `a`. -/
def memErase (a : Nat) : Memory → Memory
  | [] => []
  | (k, c) :: m => if a = k then memErase a m else (k, c) :: memErase a m

/-- The byte at an address: the listed byte, else the reset contents. -/
def memByte (p : Config.Params) (m : Memory) (a : Nat) : Byte := (memLookup m a).getD (initByte p a)

/-- Store a byte, keeping the canonical form: a byte equal to the reset contents is not listed. -/
def memStore (p : Config.Params) (m : Memory) (a : Nat) (b : Byte) : Memory :=
  if b = initByte p a then memErase a m else memInsert a b m

/-- Addresses strictly rise, the first at `lo` or above. -/
def memRisingFrom (lo : Nat) : Memory → Bool
  | [] => true
  | (k, _) :: m => decide (lo ≤ k) && memRisingFrom (k + 1) m

/-- The canonical form: addresses strictly rising and inside the memory, no entry equal to what an
unlisted address reads as. -/
def Memory.wf (p : Config.Params) (m : Memory) : Bool :=
  memRisingFrom 0 m && m.all fun c => decide (c.1 < Config.memSize) && c.2 != initByte p c.1

/-- The byte that the memory of a state holds at an address below 0x1000. -/
def byteAt (s : State) (a : Nat) : Byte := memByte s.params s.mem a

/-- `MemRead(a, 1)` for the access kind `k` (R53, R54). -/
def readByte (s : State) (k : Access) (a : Addr) : Except Fault Byte :=
  if a.toNat < Config.memSize then .ok (byteAt s a.toNat)
  else .error (.memoryOutOfRange s.pc a k)

/-- `MemWrite(a, 1, b)` (R53, R54). -/
def writeByte (s : State) (a : Addr) (b : Byte) : Except Fault State :=
  if a.toNat < Config.memSize then .ok { s with mem := memStore s.params s.mem a.toNat b }
  else .error (.memoryOutOfRange s.pc a .write)

/-- The `n` data bytes at `a, a +16 1, …` in increasing order (43_index_memory.md R170). -/
def readBytes (s : State) (a : Addr) : Nat → Except Fault (List Byte)
  | 0 => .ok []
  | n + 1 =>
    match readByte s .read a with
    | .error r => .error r
    | .ok b =>
      match readBytes s (a + 1) n with
      | .error r => .error r
      | .ok bs => .ok (b :: bs)

/-- Write bytes at `a, a +16 1, …` in increasing order (43_index_memory.md R170). -/
def writeBytes (s : State) (a : Addr) : List Byte → Except Fault State
  | [] => .ok s
  | b :: bs =>
    match writeByte s a b with
    | .error r => .error r
    | .ok s' => writeBytes s' (a + 1) bs

/-! ### The program-counter policy (00_scope.md R12, 40_cycle.md R97) -/

/-- What a handler reports. -/
inductive Policy where
  | next
  | skip
  | jump (target : Addr)
  deriving DecidableEq, Repr

/-- Step 6 of the tick: the program-counter update. The additions wrap modulo 2^16. -/
def applyPolicy (s : State) : Policy → State
  | .next => { s with pc := s.pc + 2 }
  | .skip => { s with pc := s.pc + 4 }
  | .jump a => { s with pc := a }

/-- The policy of a conditional skip. -/
def skipIf (c : Bool) : Policy := if c then .skip else .next

/-! ### The call stack (10_state.md R25, 60_exceptions.md R231, R233) -/

/-- `push(STACK, a)`; a stack that holds STACK_LIMIT entries overflows. -/
def pushStack (s : State) (a : Addr) : Except Fault State :=
  if s.params.stackLimit = some s.stack.length then .error (.stackOverflow s.pc)
  else .ok { s with stack := a :: s.stack }

/-- `pop(STACK)`: the most recently pushed entry and the state without it. -/
def popStack (s : State) : Except Fault (Addr × State) :=
  match s.stack with
  | [] => .error (.stackUnderflow s.pc)
  | a :: rest => .ok (a, { s with stack := rest })

/-! ### Steps 1 to 3 of the tick (40_cycle.md R91-R93) -/

/-- Step 1: the big-endian word at PC and PC +16 1; the first byte outside the memory faults (R91). -/
def fetch (s : State) : Except Fault Word :=
  match readByte s .fetch s.pc with
  | .error r => .error r
  | .ok hi =>
    match readByte s .fetch (s.pc + 1) with
    | .error r => .error r
    | .ok lo => .ok (wordOfBytes hi lo)

/-- A timer's step: down by one while nonzero, never below zero (R92). -/
def countDown (t : Byte) : Byte := if t = 0 then 0 else t - 1

/-- Steps 2 and 3: DT and ST count down; SND is on exactly when ST was nonzero before (R92, R93). -/
def stepTimers (s : State) : State :=
  { s with dt := countDown s.dt, snd := decide (s.st ≠ 0), st := countDown s.st }

/-- The handler of a word that no row matches: nothing but the advance of PC (R96). -/
def execUnrecognised (s : State) : Host.Outcome State Fault Refusal := .next (applyPolicy s .next)

/-! ### Placing an instruction -/

/-- Store a word's bytes big-endian at an address inside the memory (20_memory.md R55). -/
def placeWord (s : State) (a : Nat) (hi lo : Byte) : State :=
  { s with mem := memStore s.params (memStore s.params s.mem a hi) (a + 1) lo }

/-- A state ready to fetch: no fault recorded, and PC moved to the program start only where the two
bytes at PC are not both inside the memory. -/
def fetchable (s : State) : State :=
  { s with fault := none,
           pc := if s.pc.toNat + 1 < Config.memSize then s.pc else Config.programStart }

end Sys2Proof.Machine
end

