-- ==== Sys2Proof/Machine/Operands.lean ====
section
/-! DEFINITION. The operand forms (spec 30_encoding.md R73, 43_index_memory.md R170, R173, R174,
45_keypad_timers.md R210). -/

namespace Sys2Proof.Machine

open Sys2Proof

/-- `zext_16(nnn)`: the 12-bit address immediate, never sign-extended or scaled (R73). -/
def addrOf (nnn : Addr12) : Addr := nnn.setWidth 16

/-- `zext_16(V[x])`: a register as a 16-bit addend (00_scope.md R10). -/
def addendOf (b : Byte) : Addr := b.setWidth 16

/-- The glyph address of a byte: five times the whole byte (43_index_memory.md R173). -/
def glyphAddr (b : Byte) : Addr := addendOf b * 5

/-- The decimal digits of a byte: hundreds, tens, units (43_index_memory.md R174). -/
def bcdDigits (b : Byte) : List Byte :=
  [BitVec.ofNat 8 (b.toNat / 100), BitVec.ofNat 8 (b.toNat / 10 % 10), BitVec.ofNat 8 (b.toNat % 10)]

/-- `KEY == b`: a key is present and its code equals the whole byte (45_keypad_timers.md R210). -/
def keyIs (s : State) (b : Byte) : Bool :=
  match s.key with
  | none => false
  | some k => decide (k.val = b.toNat)

end Sys2Proof.Machine
end

