-- ==== Sys2Proof/Machine/Arithmetic.lean ====
section
/-! DEFINITION. Register loads, arithmetic, logic, shifts and random (spec 42_arithmetic.md R140-R154).
Operands are read first; the writes take effect in the order the rule lists them, so the later write
stays when x = F (R98, R141; the spec's own decision D3). -/

namespace Sys2Proof.Machine

open Sys2Proof

/-- Write one result register and advance. -/
def writeResult (s : State) (x : Reg) (b : Byte) : Host.Outcome State Fault Refusal :=
  .next (applyPolicy (setV s x b) .next)

/-- Write `V[x] <- a`, then `V[y] <- b`, and advance. -/
def writeInOrder (s : State) (x : Reg) (a : Byte) (y : Reg) (b : Byte) :
    Host.Outcome State Fault Refusal :=
  .next (applyPolicy (setV (setV s x a) y b) .next)

/-- 6xnn (R142). -/
def execLdImm (x : Reg) (nn : Byte) (s : State) : Host.Outcome State Fault Refusal :=
  writeResult s x nn

/-- 7xnn (R143): wrapping, no flag. -/
def execAddImm (x : Reg) (nn : Byte) (s : State) : Host.Outcome State Fault Refusal :=
  writeResult s x (getV s x + nn)

/-- 8xy0 (R144). -/
def execLdReg (x y : Reg) (s : State) : Host.Outcome State Fault Refusal :=
  writeResult s x (getV s y)

/-- 8xy1 (R145). -/
def execOr (x y : Reg) (s : State) : Host.Outcome State Fault Refusal :=
  writeResult s x (getV s x ||| getV s y)

/-- 8xy2 (R146). -/
def execAnd (x y : Reg) (s : State) : Host.Outcome State Fault Refusal :=
  writeResult s x (getV s x &&& getV s y)

/-- 8xy3 (R147). -/
def execXor (x y : Reg) (s : State) : Host.Outcome State Fault Refusal :=
  writeResult s x (getV s x ^^^ getV s y)

/-- 8xy4 (R148): the sum, then the carry. -/
def execAddReg (x y : Reg) (s : State) : Host.Outcome State Fault Refusal :=
  let a := getV s x
  let b := getV s y
  writeInOrder s x (a + b) regVF (carryFlag a b)

/-- 8xy5 (R149): the difference, then the no-borrow flag. -/
def execSub (x y : Reg) (s : State) : Host.Outcome State Fault Refusal :=
  let a := getV s x
  let b := getV s y
  writeInOrder s x (a - b) regVF (noBorrowFlag a b)

/-- 8xy6 (R150): the flag, then the shifted value; y is not read. -/
def execShr (x _y : Reg) (s : State) : Host.Outcome State Fault Refusal :=
  let a := getV s x
  writeInOrder s regVF (shiftRightFlag a) x (a >>> 1)

/-- 8xy7 (R151): the reverse difference, then the no-borrow flag. -/
def execSubn (x y : Reg) (s : State) : Host.Outcome State Fault Refusal :=
  let a := getV s x
  let b := getV s y
  writeInOrder s x (b - a) regVF (noBorrowFlag b a)

/-- 8xyE (R152): the flag, then the shifted value; y is not read. -/
def execShl (x _y : Reg) (s : State) : Host.Outcome State Fault Refusal :=
  let a := getV s x
  writeInOrder s regVF (shiftLeftFlag a) x (a <<< 1)

/-- One draw from the random-byte source, and the state after it (R153). -/
def drawRandom (s : State) : Byte × State :=
  (Config.randomByte s.draws, { s with draws := s.draws + 1 })

/-- Cxnn (R154). -/
def execRnd (x : Reg) (nn : Byte) (s : State) : Host.Outcome State Fault Refusal :=
  let (b, s') := drawRandom s
  writeResult s' x (b &&& nn)

end Sys2Proof.Machine
end

