-- ==== Sys2Proof/Machine/ControlFlow.lean ====
section
/-! DEFINITION. Returns, jumps, calls and skips (spec 41_control_flow.md R110-R118). -/

namespace Sys2Proof.Machine

open Sys2Proof

/-- 00EE (R110): jump to the popped entry; an empty STACK faults. -/
def execRet (s : State) : Host.Outcome State Fault Refusal :=
  match popStack s with
  | .error r => raise r
  | .ok (a, s') => .next (applyPolicy s' (.jump a))

/-- 1nnn (R111). -/
def execJp (nnn : Addr12) (s : State) : Host.Outcome State Fault Refusal :=
  .next (applyPolicy s (.jump (addrOf nnn)))

/-- 2nnn (R112): push the address after this instruction, then jump. -/
def execCall (nnn : Addr12) (s : State) : Host.Outcome State Fault Refusal :=
  match pushStack s (s.pc + 2) with
  | .error r => raise r
  | .ok s' => .next (applyPolicy s' (.jump (addrOf nnn)))

/-- 3xnn (R113). -/
def execSeImm (x : Reg) (nn : Byte) (s : State) : Host.Outcome State Fault Refusal :=
  .next (applyPolicy s (skipIf (decide (getV s x = nn))))

/-- 4xnn (R114). -/
def execSneImm (x : Reg) (nn : Byte) (s : State) : Host.Outcome State Fault Refusal :=
  .next (applyPolicy s (skipIf (decide (getV s x ≠ nn))))

/-- 5xy0 (R115). -/
def execSeReg (x y : Reg) (s : State) : Host.Outcome State Fault Refusal :=
  .next (applyPolicy s (skipIf (decide (getV s x = getV s y))))

/-- 9xy0 (R116). -/
def execSneReg (x y : Reg) (s : State) : Host.Outcome State Fault Refusal :=
  .next (applyPolicy s (skipIf (decide (getV s x ≠ getV s y))))

/-- Bnnn (R117): V0, always V0, plus nnn, not reduced to 12 bits. -/
def execJpV0 (nnn : Addr12) (s : State) : Host.Outcome State Fault Refusal :=
  .next (applyPolicy s (.jump (addendOf (getV s 0) + addrOf nnn)))

end Sys2Proof.Machine
end

