-- ==== Sys2Proof/Machine/Display.lean ====
section
/-! DEFINITION. The frame buffer: clear, sprite draw and collision (spec 44_display.md R190-R194). -/

namespace Sys2Proof.Machine

open Sys2Proof

/-- `FB[x][y]`, both axes wrapping (R30, R191). -/
def pixel (fb : FrameBuffer) (x y : Nat) : Bool :=
  (fb[y % 32]'(Nat.mod_lt _ (by decide)))[x % 64]'(Nat.mod_lt _ (by decide))

/-- `FB[x][y] <- on`, both axes wrapping. -/
def setPixel (fb : FrameBuffer) (x y : Nat) (on : Bool) : FrameBuffer :=
  fb.set (y % 32)
    ((fb[y % 32]'(Nat.mod_lt _ (by decide))).set (x % 64) on (Nat.mod_lt _ (by decide)))
    (Nat.mod_lt _ (by decide))

/-- `clear` (R190). -/
def clearScreen (s : State) : State := { s with fb := FrameBuffer.dark }

/-- One sprite bit at one pixel: exclusive-OR, and a collision when a lit pixel went dark
(R191, R192). -/
def plot (x y : Nat) (bit : Bool) (acc : FrameBuffer × Bool) : FrameBuffer × Bool :=
  let old := pixel acc.1 x y
  let new := old ^^ bit
  (setPixel acc.1 x y new, acc.2 || (old && !new))

/-- Bit position `b` of a sprite row, most significant first: `b = 0` is bit 7 (R191). -/
def spriteBit (row : Byte) (b : Nat) : Bool := row.getLsbD (7 - b)

/-- One row of a sprite, its bits in order b = 0..7 (R191). -/
def drawRow (ox y : Nat) (row : Byte) (acc : FrameBuffer × Bool) : FrameBuffer × Bool :=
  (List.range 8).foldl (fun acc b => plot (ox + b) y (spriteBit row b) acc) acc

/-- The rows of a sprite in order, the first at row `y` (R191). -/
def drawRows (ox : Nat) : Nat → List Byte → FrameBuffer × Bool → FrameBuffer × Bool
  | _, [], acc => acc
  | y, row :: rows, acc => drawRows ox (y + 1) rows (drawRow ox y row acc)

/-- `draw_sprite(origin_x, origin_y, byte_rows)`: the buffer after it and the collision result (R191). -/
def drawSprite (ox oy : Byte) (rows : List Byte) (fb : FrameBuffer) : FrameBuffer × Bool :=
  drawRows ox.toNat oy.toNat rows (fb, false)

/-- 00E0 (R193). -/
def execCls (s : State) : Host.Outcome State Fault Refusal :=
  .next (applyPolicy (clearScreen s) .next)

/-- Dxyn (R194): all sprite bytes are read before any pixel changes; VF is written last and in every
case. -/
def execDrw (x y : Reg) (n : Nat) (s : State) : Host.Outcome State Fault Refusal :=
  match readBytes s s.i n with
  | .error r => raise r
  | .ok rows =>
    let drawn := drawSprite (getV s x) (getV s y) rows s.fb
    .next (applyPolicy (setV { s with fb := drawn.1 } regVF (collisionFlag drawn.2)) .next)

end Sys2Proof.Machine
end

