-- ==== Sys2Proof/Machine/IndexMemory.lean ====
section
/-! DEFINITION. The index register and the memory transfers (spec 43_index_memory.md R170-R176). No
access changes I (R170, D5). -/

namespace Sys2Proof.Machine

open Sys2Proof

/-- `I <- a` and advance. -/
def writeIndex (s : State) (a : Addr) : Host.Outcome State Fault Refusal :=
  .next (applyPolicy { s with i := a } .next)

/-- Store bytes from I on and advance. -/
def storeAtIndex (s : State) (bs : List Byte) : Host.Outcome State Fault Refusal :=
  match writeBytes s s.i bs with
  | .error r => raise r
  | .ok s' => .next (applyPolicy s' .next)

/-- Annn (R171). -/
def execLdI (nnn : Addr12) (s : State) : Host.Outcome State Fault Refusal :=
  writeIndex s (addrOf nnn)

/-- Fx1E (R172): wraps at 16 bits, no flag, no check against the memory size. -/
def execAddIVx (x : Reg) (s : State) : Host.Outcome State Fault Refusal :=
  writeIndex s (s.i + addendOf (getV s x))

/-- Fx29 (R173). -/
def execLdFVx (x : Reg) (s : State) : Host.Outcome State Fault Refusal :=
  writeIndex s (glyphAddr (getV s x))

/-- Fx33 (R174). -/
def execLdBVx (x : Reg) (s : State) : Host.Outcome State Fault Refusal :=
  storeAtIndex s (bcdDigits (getV s x))

/-- Fx55 (R175). -/
def execLdMemVx (x : Reg) (s : State) : Host.Outcome State Fault Refusal :=
  storeAtIndex s (regsUpTo s x)

/-- Fx65 (R176). -/
def execLdVxMem (x : Reg) (s : State) : Host.Outcome State Fault Refusal :=
  match readBytes s s.i (x.val + 1) with
  | .error r => raise r
  | .ok bs => .next (applyPolicy (setRegsFrom 0 bs s) .next)

end Sys2Proof.Machine
end

