-- ==== Sys2Proof/Machine/KeypadTimers.lean ====
section
/-! DEFINITION. Keypad tests, the key wait and timer access (spec 45_keypad_timers.md R210-R216). The
timers of the state a handler sees have already been stepped in this tick (40_cycle.md R92, R93). -/

namespace Sys2Proof.Machine

open Sys2Proof

/-- Ex9E (R211). -/
def execSkp (x : Reg) (s : State) : Host.Outcome State Fault Refusal :=
  .next (applyPolicy s (skipIf (keyIs s (getV s x))))

/-- ExA1 (R212): no key counts as not equal. -/
def execSknp (x : Reg) (s : State) : Host.Outcome State Fault Refusal :=
  .next (applyPolicy s (skipIf (!keyIs s (getV s x))))

/-- Fx07 (R213): the value read is already decremented for this tick. -/
def execLdVxDt (x : Reg) (s : State) : Host.Outcome State Fault Refusal :=
  .next (applyPolicy (setV s x s.dt) .next)

/-- Fx0A (R214): jump to this instruction again until the key equal to Vx is held; no register is
written. -/
def execWaitKeyEq (x : Reg) (s : State) : Host.Outcome State Fault Refusal :=
  .next (applyPolicy s (if keyIs s (getV s x) then .next else .jump s.pc))

/-- Fx15 (R215). -/
def execLdDtVx (x : Reg) (s : State) : Host.Outcome State Fault Refusal :=
  .next (applyPolicy { s with dt := getV s x } .next)

/-- Fx18 (R216): SND is not written. -/
def execLdStVx (x : Reg) (s : State) : Host.Outcome State Fault Refusal :=
  .next (applyPolicy { s with st := getV s x } .next)

end Sys2Proof.Machine
end

