-- ==== Sys2Proof/Machine/Step.lean ====
section
/-! DEFINITION. One tick of the engine (spec 40_cycle.md R100) and the host's placing of an instruction. -/

namespace Sys2Proof.Machine

open Sys2Proof

/-- Steps 4 to 6 of a tick: decode the fetched word and run its one handler, or the no-op of an
unrecognised word (R94-R97). -/
def runWord (w : Word) (s : State) : Host.Outcome State Fault Refusal :=
  match decodeWord w with
  | .ok i => exec i s
  | .error _ => execUnrecognised s

/-- One tick (R100): no step after a fault (R101); fetch; timers and sound flag; decode, handler and
policy. -/
def step (s : State) : Host.Outcome State Fault Refusal :=
  match s.fault with
  | some r => raise r
  | none =>
    match fetch s with
    | .error r => raise r
    | .ok w => runWord w (stepTimers s)

/-- The state with an instruction's word stored where the next step fetches (big-endian at PC), no fault
recorded, so that this step runs it. PC moves only where its two bytes are not inside the memory. -/
def State.withFetchWord (s : State) (nbits w : Nat) : State :=
  match tableBytes nbits w with
  | [hi, lo] => placeWord (fetchable s) (fetchable s).pc.toNat hi lo
  | _ => s

end Sys2Proof.Machine
end

