-- ==== Sys2Proof/Machine/HostOps.lean ====
section
/-! DEFINITION. The host's operations between ticks (spec 60_exceptions.md R240-R243,
70_reset_and_hazards.md R260-R264). -/

namespace Sys2Proof.Machine

open Sys2Proof

/-- The state that a faulting tick leaves: FAULT holds the record; every other element is unspecified
(40_cycle.md R101). The parameters and the draw counter, which are no elements of the spec's state, stay. -/
def faultedState (s : State) (r : Fault) : State :=
  { Config.stateAfterFault s r with fault := some r, params := s.params, draws := s.draws }

/-- `tick()` as the host sees it (R243): the next state; or, when the tick raises a fault, the faulted
state; and no change once FAULT is set (40_cycle.md R100, R101). -/
def hostTick (s : State) : State :=
  match s.fault with
  | some _ => s
  | none =>
    match step s with
    | .next t => t
    | .fault r => faultedState s r
    | .refused _ => s

/-- `reset()` (70_reset_and_hazards.md R261, R262): every element at its reset value but KEY, which is the
host's (R260, D11). The ROM is not reloaded (D22). The random-byte source is no state (10_state.md R33), so
its counter goes on. -/
def hostReset (s : State) : State :=
  { State.resetWith s.params with key := s.key, draws := s.draws }

/-- Store bytes one after another from an address on, keeping the canonical form. -/
def storeRun (p : Config.Params) (a : Nat) : List Byte → Memory → Memory
  | [], m => m
  | b :: bs, m => storeRun p (a + 1) bs (memStore p m a b)

/-- `load(rom)` (70_reset_and_hazards.md R263): the bytes from 0x200 on and nothing else; a ROM that ends
past the memory is refused (D16). -/
def hostLoad (rom : List Byte) (s : State) : Host.Outcome State Fault Refusal :=
  if Config.programStart.toNat + rom.length ≤ Config.memSize then
    .next { s with mem := storeRun s.params Config.programStart.toNat rom s.mem }
  else .refused (.loadPastEnd rom.length)

/-- `set_key(code | none)` (R240); a code outside 0..15 is refused (D17). -/
def hostSetKey (code : Option Nat) (s : State) : Host.Outcome State Fault Refusal :=
  match code with
  | none => .next { s with key := none }
  | some c => if h : c < 16 then .next { s with key := some ⟨c, h⟩ } else .refused (.keyCodeOutOfRange c)

/-- `get_key()` (R240). -/
def hostGetKey (s : State) : Option (Fin 16) := s.key

/-- `should_beep()` (R241). -/
def hostShouldBeep (s : State) : Bool := s.snd

/-- A pixel as the byte 0 or 1 (10_state.md R30). -/
def pixelByte (on : Bool) : Byte := if on then 1 else 0

/-- `frame()` (R242): the pixels as bytes, row-major, cell y*64 + x. -/
def hostFrame (s : State) : List Byte :=
  (List.range (64 * 32)).map fun k => pixelByte (pixel s.fb (k % 64) (k / 64))

/-- What the host can do between or around ticks that changes the state (R243). -/
inductive HostEvent where
  | tick
  | reset
  | load (rom : List Byte)
  | setKey (code : Option Nat)
  deriving DecidableEq, Repr

/-- One host operation. -/
def hostApply (e : HostEvent) (s : State) : Host.Outcome State Fault Refusal :=
  match e with
  | .tick => .next (hostTick s)
  | .reset => .next (hostReset s)
  | .load rom => hostLoad rom s
  | .setKey code => hostSetKey code s

end Sys2Proof.Machine
end

