-- ==== Sys2Proof/Safety.lean ====
section
/-! DEFINITION. The terms that statements use: the invariant of the machine, what each instruction may
write (from the rules that list the writers of each piece of state), and what a data access touches. -/

namespace Sys2Proof.Machine

open Sys2Proof

/-- The stack holds at most STACK_LIMIT entries (10_state.md R25). -/
def StackWithinLimit (s : State) : Prop := ∀ k, s.params.stackLimit = some k → s.stack.length ≤ k

/-- The invariant: the memory is in its canonical form and the stack is within its limit. -/
def State.Inv (s : State) : Prop := Memory.wf s.params s.mem = true ∧ StackWithinLimit s

/-- The data registers that an instruction may write: its named destinations, and VF where the rules
list it as a flag output (10_state.md R21, 42_arithmetic.md R141, 43_index_memory.md R176). -/
def writtenRegs : Instr → List Reg
  | .ldImm x _ | .addImm x _ | .ldReg x _ | .orReg x _ | .andReg x _ | .xorReg x _ | .rnd x _
  | .ldVxDt x => [x]
  | .addReg x _ | .sub x _ | .shr x _ | .subn x _ | .shl x _ => [x, regVF]
  | .drw _ _ _ => [regVF]
  | .ldVxMem x => (List.range (x.val + 1)).map (Fin.ofNat 16)
  | .cls | .ret | .jp _ | .call _ | .seImm _ _ | .sneImm _ _ | .seReg _ _ | .sneReg _ _ | .ldI _
  | .jpV0 _ | .skp _ | .sknp _ | .waitKeyEq _ | .ldDtVx _ | .ldStVx _ | .addIVx _ | .ldFVx _
  | .ldBVx _ | .ldMemVx _ => []

/-- How many bytes an instruction stores from I on (20_memory.md R56). -/
def storedBytes : Instr → Nat
  | .ldBVx _ => 3
  | .ldMemVx x => x.val + 1
  | .cls | .ret | .jp _ | .call _ | .seImm _ _ | .sneImm _ _ | .seReg _ _ | .ldImm _ _
  | .addImm _ _ | .ldReg _ _ | .orReg _ _ | .andReg _ _ | .xorReg _ _ | .addReg _ _ | .sub _ _
  | .shr _ _ | .subn _ _ | .shl _ _ | .sneReg _ _ | .ldI _ | .jpV0 _ | .rnd _ _ | .drw _ _ _
  | .skp _ | .sknp _ | .ldVxDt _ | .waitKeyEq _ | .ldDtVx _ | .ldStVx _ | .addIVx _ | .ldFVx _
  | .ldVxMem _ => 0

/-- How many bytes an instruction reads as data from I on (20_memory.md R56). -/
def loadedBytes : Instr → Nat
  | .drw _ _ n => n
  | .ldVxMem x => x.val + 1
  | .cls | .ret | .jp _ | .call _ | .seImm _ _ | .sneImm _ _ | .seReg _ _ | .ldImm _ _
  | .addImm _ _ | .ldReg _ _ | .orReg _ _ | .andReg _ _ | .xorReg _ _ | .addReg _ _ | .sub _ _
  | .shr _ _ | .subn _ _ | .shl _ _ | .sneReg _ _ | .ldI _ | .jpV0 _ | .rnd _ _
  | .skp _ | .sknp _ | .ldVxDt _ | .waitKeyEq _ | .ldDtVx _ | .ldStVx _ | .addIVx _ | .ldFVx _
  | .ldBVx _ | .ldMemVx _ => 0

/-- Instructions that can report Skip (41_control_flow.md R113-R116, 45_keypad_timers.md R211, R212). -/
def isSkip : Instr → Bool
  | .seImm _ _ | .sneImm _ _ | .seReg _ _ | .sneReg _ _ | .skp _ | .sknp _ => true
  | .cls | .ret | .jp _ | .call _ | .ldImm _ _ | .addImm _ _ | .ldReg _ _ | .orReg _ _
  | .andReg _ _ | .xorReg _ _ | .addReg _ _ | .sub _ _ | .shr _ _ | .subn _ _ | .shl _ _ | .ldI _
  | .jpV0 _ | .rnd _ _ | .drw _ _ _ | .ldVxDt _ | .waitKeyEq _ | .ldDtVx _ | .ldStVx _ | .addIVx _
  | .ldFVx _ | .ldBVx _ | .ldMemVx _ | .ldVxMem _ => false

/-- Where an instruction that always jumps goes: nnn, V0 + nnn, or the top of the call stack
(41_control_flow.md R110, R111, R112, R117). -/
def jumpTarget : Instr → State → Option Addr
  | .jp nnn, _ | .call nnn, _ => some (BitVec.ofNat 16 nnn.toNat)
  | .jpV0 nnn, s => some (BitVec.ofNat 16 ((getV s 0).toNat + nnn.toNat))
  | .ret, s => s.stack.head?
  | .cls, _ | .seImm _ _, _ | .sneImm _ _, _ | .seReg _ _, _ | .ldImm _ _, _ | .addImm _ _, _
  | .ldReg _ _, _ | .orReg _ _, _ | .andReg _ _, _ | .xorReg _ _, _ | .addReg _ _, _ | .sub _ _, _
  | .shr _ _, _ | .subn _ _, _ | .shl _ _, _ | .sneReg _ _, _ | .ldI _, _ | .rnd _ _, _
  | .drw _ _ _, _ | .skp _, _ | .sknp _, _ | .ldVxDt _, _ | .waitKeyEq _, _ | .ldDtVx _, _
  | .ldStVx _, _ | .addIVx _, _ | .ldFVx _, _ | .ldBVx _, _ | .ldMemVx _, _ | .ldVxMem _, _ => none

/-- The next tick fetches the instruction `i`. -/
def Fetches (s : State) (i : Instr) : Prop := ∃ w, fetch s = .ok w ∧ decodeWord w = .ok i

/-- All `n` addresses `a, a +16 1, …` are inside the memory. -/
def AllInside (a : Addr) (n : Nat) : Prop := ∀ k < n, (a + BitVec.ofNat 16 k).toNat < Config.memSize

/-- `b` is the first of the `n` addresses `a, a +16 1, …` that is outside the memory
(60_exceptions.md R232, R236). -/
def FirstOutside (a : Addr) (n : Nat) (b : Addr) : Prop :=
  ∃ k < n, b = a + BitVec.ofNat 16 k ∧ Config.memSize ≤ b.toNat ∧ AllInside a k

end Sys2Proof.Machine
end

