-- ==== Sys2Proof/Certificates/Slice0/Obligations.lean ====
section
/-! DEFINITION. The statements for the provers. Each docstring names the rule of spec/ it formalises; where a
clause rests on a decision the spec marks as its own (D<n> of 92_eei_decisions.md) or on a choice of this
model (a log entry), it says so. `regVF` is register 15. -/

open Sys2Proof Sys2Proof.Machine

/-! ### Reset and the host's operations -/

/-- The state after reset, element by element (10_state.md R36, 70_reset_and_hazards.md R261), for every
FONT, MEM_INIT and STACK_LIMIT. That I is 0, SND off and KEY none is the spec's own decision (D9, D10, D11,
log entry 6); `State.reset` is the instance at the parameters of log entries 2 to 4. -/
def Obligations.ResetGivesTheTableOfValues : Prop :=
  State.reset = State.resetWith Config.defaultParams ∧
  ∀ p : Config.Params,
    (∀ x, getV (State.resetWith p) x = 0) ∧
    (State.resetWith p).i = 0 ∧ (State.resetWith p).pc = 0x200 ∧ (State.resetWith p).stack = [] ∧
    (State.resetWith p).dt = 0 ∧ (State.resetWith p).st = 0 ∧ (State.resetWith p).snd = false ∧
    (State.resetWith p).key = none ∧ (State.resetWith p).fault = none ∧
    (∀ x y, pixel (State.resetWith p).fb x y = false) ∧
    (∀ a (h : a < 80), byteAt (State.resetWith p) a = p.font[a]) ∧
    (∀ a, 80 ≤ a → byteAt (State.resetWith p) a = initImageByte p.memInit a)

/-- The reset state meets the invariant, whatever the parameters: the canonical form of memory is this model's
choice (log entry 7), the stack bound is the spec's own decision D14 (log entry 4). -/
def Obligations.ResetStateMeetsTheInvariant : Prop :=
  State.reset.Inv ∧ ∀ p : Config.Params, (State.resetWith p).Inv

/-- 70_reset_and_hazards.md R262 (and R261, R260): `reset()` in any state, a faulted one too, gives the
reset state of the machine's parameters, but for KEY, which it leaves (D11, log entry 6), and the model's draw
counter (log entry 5); in particular the font region reads FONT again, whatever was written there. That I is 0
and SND off are the spec's own decisions D9 and D10 (log entry 6); that memory from 0x050 on reads MEM_INIT, with
no ROM reloaded, is its decisions D12 and D22 (log entry 23). -/
def Obligations.HostResetRestoresTheFontAndAllState : Prop :=
  ∀ s : State,
    (∀ a (h : a < 80), byteAt (hostReset s) a = s.params.font[a]) ∧
    hostReset s = { State.resetWith s.params with key := s.key, draws := s.draws }

/-- 70_reset_and_hazards.md R263 and 60_exceptions.md R240: `load` writes the bytes from 0x200 on and
changes nothing else, and a ROM that ends past the memory is refused (D16); `set_key` writes KEY alone, and
a code outside 0..15 is refused (D17). -/
def Obligations.LoadAndSetKeyWriteTheirTargetsAlone : Prop :=
  ∀ s : State,
    (∀ rom : List Byte, rom.length ≤ 3584 →
      ∃ m, hostLoad rom s = .next { s with mem := m } ∧
        (∀ k (h : k < rom.length), byteAt { s with mem := m } (0x200 + k) = rom[k]) ∧
        ∀ a, a < 0x200 ∨ 0x200 + rom.length ≤ a → byteAt { s with mem := m } a = byteAt s a) ∧
    (∀ rom : List Byte, 3584 < rom.length → hostLoad rom s = .refused (.loadPastEnd rom.length)) ∧
    hostSetKey none s = .next { s with key := none } ∧
    (∀ k : Fin 16, hostSetKey (some k.val) s = .next { s with key := some k }) ∧
    (∀ c, 16 ≤ c → hostSetKey (some c) s = .refused (.keyCodeOutOfRange c))

/-- 60_exceptions.md R242: `frame()` is the 64 by 32 pixels as bytes 0 or 1, row-major, cell y*64 + x. -/
def Obligations.FrameIsTheRowMajorSnapshot : Prop :=
  ∀ s : State, (hostFrame s).length = 2048 ∧
    ∀ x < 64, ∀ y < 32, (hostFrame s)[y * 64 + x]? = some (if pixel s.fb x y then 1 else 0)

/-! ### The tick -/

/-- 40_cycle.md R100: where no fault is recorded and the two bytes at PC decode to `i`, a tick is the
handler of `i` on the state in which DT and ST have counted down and SND says whether ST was nonzero. -/
def Obligations.StepRunsTheDecodedInstruction : Prop :=
  ∀ (s : State) (i : Instr), s.fault = none → s.pc.toNat + 1 < 4096 →
    decode [byteAt s s.pc.toNat, byteAt s (s.pc.toNat + 1)] = .ok (i, []) →
    step s = exec i { s with dt := if s.dt = 0 then 0 else s.dt - 1,
                             snd := decide (s.st ≠ 0),
                             st := if s.st = 0 then 0 else s.st - 1 }

/-- 20_memory.md R55: where both bytes are inside the memory, the fetch is their big-endian word. -/
def Obligations.FetchReadsTheBigEndianWord : Prop :=
  ∀ s : State, s.pc.toNat + 1 < 4096 →
    ∃ w, fetch s = .ok w ∧
      w.toNat = (byteAt s s.pc.toNat).toNat * 256 + (byteAt s (s.pc.toNat + 1)).toNat

/-- 40_cycle.md R91 with 20_memory.md R53 (the spec's own decision D1): a fetch whose first or second byte
is outside the memory faults with the address of that byte. -/
def Obligations.FetchOutsideTheMemoryFaults : Prop :=
  ∀ s : State, s.fault = none →
    (4096 ≤ s.pc.toNat → step s = .fault (.memoryOutOfRange s.pc s.pc .fetch)) ∧
    (s.pc = 0x0FFF → step s = .fault (.memoryOutOfRange 0x0FFF 0x1000 .fetch))

/-- 40_cycle.md R92: the delay timer counts down by one, never below zero, once in every tick that passes
the fetch, whatever the word, and before the handler: so Fx15 overwrites the counted value and Fx07 reads
it. -/
def Obligations.DelayTimerCountsDownOncePerTick : Prop :=
  ∀ s t : State, step s = .next t →
    ((∀ x, ¬ Fetches s (.ldDtVx x)) → t.dt.toNat = s.dt.toNat - 1) ∧
    (∀ x, Fetches s (.ldDtVx x) → t.dt = getV s x) ∧
    (∀ x, Fetches s (.ldVxDt x) → (getV t x).toNat = s.dt.toNat - 1)

/-- 40_cycle.md R93: in every tick SND becomes whether ST was nonzero before its count down, and ST counts
down (Fx18 then writes it); so, while no Fx18 runs, SND is on after exactly as many ticks as ST counted,
and off after them. -/
def Obligations.SoundFlagIsOnForExactlyTheTicksCounted : Prop :=
  (∀ s t : State, step s = .next t →
    (t.snd = true ↔ 0 < s.st.toNat) ∧
    ((∀ x, ¬ Fetches s (.ldStVx x)) → t.st.toNat = s.st.toNat - 1) ∧
    (∀ x, Fetches s (.ldStVx x) → t.st = getV s x)) ∧
  (∀ (f : Nat → State) (n : Nat),
    (∀ k < n, step (f k) = .next (f (k + 1)) ∧ ∀ x, ¬ Fetches (f k) (.ldStVx x)) →
    ∀ k, 1 ≤ k → k ≤ n →
      (f k).st.toNat = (f 0).st.toNat - k ∧ ((f k).snd = true ↔ k ≤ (f 0).st.toNat))

/-- 40_cycle.md R96: a word that no row matches writes nothing but PC + 2 and the timer step. -/
def Obligations.UnrecognisedWordIsANoOpTick : Prop :=
  ∀ (s : State) (w : Word) (e : DecodeError), s.fault = none → fetch s = .ok w →
    decodeWord w = .error e →
    step s = .next { s with pc := s.pc + 2,
                            dt := if s.dt = 0 then 0 else s.dt - 1,
                            snd := decide (s.st ≠ 0),
                            st := if s.st = 0 then 0 else s.st - 1 }

/-- 40_cycle.md R97: the policy of each instruction: a jump goes to its target; any other instruction
advances PC by 2, or by 4 if it is a skip, or, waiting for a key, stays (R98, R99 for the frame: D6). -/
def Obligations.ProgramCounterMovesByOnePolicy : Prop :=
  ∀ (i : Instr) (s t : State), exec i s = .next t →
    (∀ a, jumpTarget i s = some a → t.pc = a) ∧
    (jumpTarget i s = none →
      t.pc = s.pc + 2 ∨ (isSkip i = true ∧ t.pc = s.pc + 4) ∨ (∃ x, i = .waitKeyEq x ∧ t.pc = s.pc))

/-- Every instruction completes exactly when its data accesses are inside the memory, 00EE finds an entry
and 2nnn finds room (20_memory.md R53, R56, D1; 41_control_flow.md R110, R112, D14; 60_exceptions.md R234,
R239): in those states it answers a next state, and in no others. -/
def Obligations.EveryInstructionCompletesExactlyThen : Prop :=
  ∀ (i : Instr) (s : State),
    (∃ t, exec i s = .next t) ↔
      AllInside s.i (loadedBytes i) ∧ AllInside s.i (storedBytes i) ∧
      (i = .ret → s.stack ≠ []) ∧
      (∀ nnn, i = .call nnn → s.params.stackLimit ≠ some s.stack.length)

/-- No tick is refused: every word of every state has a meaning (30_encoding.md R76, R77;
60_exceptions.md R234). -/
def Obligations.StepNeverRefuses : Prop :=
  ∀ (s : State) (r : Refusal), step s ≠ .refused r

/-! ### Faults -/

/-- 60_exceptions.md R231: StackUnderflow is raised by 00EE on an empty stack, with its PC, and by nothing
else. -/
def Obligations.StackUnderflowIsRaisedBy00EEAlone : Prop :=
  ∀ (s : State) (a : Addr), s.fault = none →
    (step s = .fault (.stackUnderflow a) ↔ fetch s = .ok 0x00EE ∧ s.stack = [] ∧ a = s.pc)

/-- 60_exceptions.md R232, R236 (the spec's own decisions D1, D2): MemoryOutOfRange is raised exactly for
the first address outside the memory among the fetch's two, then the handler's; that the record holds the PC and
the kind of access is the spec's own decision D23 (log entry 21). -/
def Obligations.MemoryOutOfRangeIsTheFirstAddressOutside : Prop :=
  ∀ (s : State) (a b : Addr) (k : Access), s.fault = none →
    (step s = .fault (.memoryOutOfRange a b k) ↔
      a = s.pc ∧
        ((k = .fetch ∧ FirstOutside s.pc 2 b) ∨
          ∃ i, Fetches s i ∧
            ((k = .read ∧ FirstOutside s.i (loadedBytes i) b) ∨
              (k = .write ∧ FirstOutside s.i (storedBytes i) b))))

/-- 60_exceptions.md R233 (the spec's own decision D14): StackOverflow is raised exactly by 2nnn when the
stack holds STACK_LIMIT entries, with its PC; never without a limit. -/
def Obligations.StackOverflowIsRaisedAtTheLimitAlone : Prop :=
  ∀ (s : State) (a : Addr), s.fault = none →
    (step s = .fault (.stackOverflow a) ↔
      (∃ nnn, Fetches s (.call nnn)) ∧ s.params.stackLimit = some s.stack.length ∧ a = s.pc)

/-- 40_cycle.md R101, 60_exceptions.md R230 (the spec's own decision D2): a tick that faults sets FAULT to
its record; from then on no tick changes anything; a tick that does not fault leaves FAULT none; `reset()`
clears it. -/
def Obligations.FaultIsRecordedAndStopsTheEngine : Prop :=
  ∀ s : State,
    (∀ r, s.fault = some r → step s = .fault r ∧ hostTick s = s) ∧
    (∀ r, s.fault = none → step s = .fault r → (hostTick s).fault = some r) ∧
    (∀ t, step s = .next t → hostTick s = t ∧ t.fault = none) ∧
    (hostReset s).fault = none

/-! ### Encoding -/

/-- 30_encoding.md R71: the fields of a word are its bits 15..12, 11..8, 7..4, 3..0, 7..0 and 11..0. -/
def Obligations.FieldsAreTheNibblesOfTheWord : Prop :=
  ∀ w : Word,
    (fieldP4 w).toNat = w.toNat / 4096 ∧ (fieldX w).val = w.toNat / 256 % 16 ∧
    (fieldY w).val = w.toNat / 16 % 16 ∧ (fieldN w).toNat = w.toNat % 16 ∧
    (fieldNN w).toNat = w.toNat % 256 ∧ (fieldNNN w).toNat = w.toNat % 4096

/-- 30_encoding.md R74 (the fixed digits: the spec's own decision D7) and R77: the decoder gives a word the
instruction of the one row that matches it, and rejects it as unrecognised exactly when no row does. -/
def Obligations.DecoderAgreesWithTheOpcodeTable : Prop :=
  opcodeTable.length = 34 ∧
  (∀ i : Instr, i.row ∈ opcodeTable) ∧
  (∀ (w : Word) (i : Instr), decodeWord w = .ok i →
    i.row.matchesWord w = true ∧ ∀ r ∈ opcodeTable, r.matchesWord w = true → r = i.row) ∧
  (∀ (w : Word) (e : DecodeError), decodeWord w = .error e →
    e = .unrecognised w ∧ ∀ r ∈ opcodeTable, r.matchesWord w = false)

/-- Decoding the encoding of a well-formed instruction gives it back, every operand at every value
(30_encoding.md R72, R73, R74). -/
def Obligations.DecodeOfEncodeIsTheInstruction : Prop :=
  ∀ (i : Instr) (rest : List Byte), i.wellFormed = true →
    decode (highByte (encode i) :: lowByte (encode i) :: rest) = .ok (i, rest)

/-- A recognised word is the encoding of its instruction, which is well-formed: no bit of a word is
dropped (30_encoding.md R72, R74). That is so because every fixed digit must match, the spec's own decision D7
(log entry 14). -/
def Obligations.EncodeOfDecodeIsTheWord : Prop :=
  ∀ (w : Word) (i : Instr), decodeWord w = .ok i → encode i = w ∧ i.wellFormed = true

/-- 30_encoding.md R75 (D7): the unrecognised words are exactly the listed spaces. -/
def Obligations.UnrecognisedWordsAreTheListedSpaces : Prop :=
  ∀ w : Word, (∃ e, decodeWord w = .error e) ↔
    (w.toNat < 0x1000 ∧ w ≠ 0x00E0 ∧ w ≠ 0x00EE) ∨
    (w.toNat / 4096 = 0x5 ∧ w.toNat % 16 ≠ 0) ∨
    (w.toNat / 4096 = 0x8 ∧ w.toNat % 16 ∈ [0x8, 0x9, 0xA, 0xB, 0xC, 0xD, 0xF]) ∨
    (w.toNat / 4096 = 0x9 ∧ w.toNat % 16 ≠ 0) ∨
    (w.toNat / 4096 = 0xE ∧ w.toNat % 256 ∉ [0x9E, 0xA1]) ∨
    (w.toNat / 4096 = 0xF ∧
      w.toNat % 256 ∉ [0x07, 0x0A, 0x15, 0x18, 0x1E, 0x29, 0x33, 0x55, 0x65])

/-- Words written out from the table of 30_encoding.md R74 decode to their instructions, one of each
format. -/
def Obligations.WrittenWordsDecodeAsTheTableSays : Prop :=
  decode [0x00, 0xE0] = .ok (.cls, []) ∧
  decode [0x2A, 0xBC] = .ok (.call 0xABC, []) ∧
  decode [0x63, 0x7F] = .ok (.ldImm 0x3 0x7F, []) ∧
  decode [0x81, 0x2E] = .ok (.shl 0x1 0x2, []) ∧
  decode [0xDA, 0xB5] = .ok (.drw 0xA 0xB 5, []) ∧
  decode [0xFC, 0x65] = .ok (.ldVxMem 0xC, []) ∧
  decode [0x51, 0x21] = .error (.unrecognised 0x5121)

/-! ### Frames: what an instruction leaves unchanged (40_cycle.md R99, the spec's own decision D6) -/

/-- Every data register keeps its value, but the instruction's destinations and, where 10_state.md R21
lists it, VF as a flag. -/
def Obligations.RegistersKeepTheirValueUnlessNamed : Prop :=
  ∀ (i : Instr) (s t : State), exec i s = .next t →
    ∀ r, r ∉ writtenRegs i → getV t r = getV s r

/-- Every byte of memory keeps its value, but the bytes that Fx33 (three, from I on) and Fx55 (x + 1, from
I on) store to (20_memory.md R56). -/
def Obligations.MemoryKeepsItsBytesOutsideTheStore : Prop :=
  ∀ (i : Instr) (s t : State), exec i s = .next t →
    ∀ a : Nat, (∀ k < storedBytes i, a ≠ (s.i + BitVec.ofNat 16 k).toNat) → byteAt t a = byteAt s a

/-- I, STACK, DT, ST, SND and FB each keep their value unless the instruction is one of their writers
(10_state.md R23, R25, R26, R27, R28, R30). -/
def Obligations.OtherEngineStateKeepsItsValueUnlessNamed : Prop :=
  ∀ (i : Instr) (s t : State), exec i s = .next t →
    ((∀ nnn, i ≠ .ldI nnn) → (∀ x, i ≠ .addIVx x) → (∀ x, i ≠ .ldFVx x) → t.i = s.i) ∧
    ((∀ nnn, i ≠ .call nnn) → i ≠ .ret → t.stack = s.stack) ∧
    ((∀ x, i ≠ .ldDtVx x) → t.dt = s.dt) ∧
    ((∀ x, i ≠ .ldStVx x) → t.st = s.st) ∧
    t.snd = s.snd ∧
    (i ≠ .cls → (∀ x y n, i ≠ .drw x y n) → t.fb = s.fb)

/-- No instruction writes KEY (10_state.md R29), FAULT, or the machine's parameters; one random byte is
drawn by Cxnn and none by any other instruction (42_arithmetic.md R153, D15; the counter is the model's,
log entry 5). -/
def Obligations.NoInstructionWritesKeyFaultOrParameters : Prop :=
  ∀ (i : Instr) (s t : State), exec i s = .next t →
    t.key = s.key ∧ t.fault = s.fault ∧ t.params = s.params ∧
    ((∀ x nn, i ≠ .rnd x nn) → t.draws = s.draws) ∧
    (∀ x nn, i = .rnd x nn → t.draws = s.draws + 1)

/-! ### Control flow -/

/-- 41_control_flow.md R111 and R117: encoding, target and no flag of 1nnn and Bnnn; the sum V0 + nnn is
not reduced to 12 bits, and the x digit selects no register. -/
def Obligations.JumpsGoToTheirTargets : Prop :=
  (∀ w : Word, w &&& 0xF000 = 0x1000 → decodeWord w = .ok (.jp (fieldNNN w))) ∧
  (∀ w : Word, w &&& 0xF000 = 0xB000 → decodeWord w = .ok (.jpV0 (fieldNNN w))) ∧
  ∀ (nnn : Addr12) (s : State),
    (∃ t, exec (.jp nnn) s = .next t ∧ t.pc.toNat = nnn.toNat ∧ t.v = s.v) ∧
    (∃ t, exec (.jpV0 nnn) s = .next t ∧ t.pc.toNat = (getV s 0).toNat + nnn.toNat ∧ t.v = s.v)

/-- 41_control_flow.md R110: 00EE pops the most recent entry into PC, as it is; an empty stack faults with
the PC of the 00EE. -/
def Obligations.ReturnPopsTheMostRecentEntry : Prop :=
  decodeWord 0x00EE = .ok .ret ∧
  ∀ s : State,
    (∀ a rest, s.stack = a :: rest →
      ∃ t, exec .ret s = .next t ∧ t.pc = a ∧ t.stack = rest ∧ t.v = s.v) ∧
    (s.stack = [] → exec .ret s = .fault (.stackUnderflow s.pc))

/-- 41_control_flow.md R112 (STACK_LIMIT: the spec's own decision D14): 2nnn pushes PC + 2 and jumps, and
overflows at the limit; and a 00EE that finds the stack so returns to PC + 2 with the stack as before the
call. -/
def Obligations.CallPushesTheReturnAddress : Prop :=
  (∀ w : Word, w &&& 0xF000 = 0x2000 → decodeWord w = .ok (.call (fieldNNN w))) ∧
  ∀ (nnn : Addr12) (s : State),
    (s.params.stackLimit ≠ some s.stack.length →
      ∃ t, exec (.call nnn) s = .next t ∧ t.pc.toNat = nnn.toNat ∧ t.stack = (s.pc + 2) :: s.stack ∧
        t.v = s.v ∧
        ∀ u : State, u.stack = t.stack →
          ∃ w, exec .ret u = .next w ∧ w.pc = s.pc + 2 ∧ w.stack = s.stack) ∧
    (s.params.stackLimit = some s.stack.length → exec (.call nnn) s = .fault (.stackOverflow s.pc))

/-- 41_control_flow.md R113 and R114: 3xnn skips exactly when V[x] = nn, 4xnn exactly when not; no flag. -/
def Obligations.ImmediateSkipsCompareTheRegister : Prop :=
  (∀ w : Word, w &&& 0xF000 = 0x3000 → decodeWord w = .ok (.seImm (fieldX w) (fieldNN w))) ∧
  (∀ w : Word, w &&& 0xF000 = 0x4000 → decodeWord w = .ok (.sneImm (fieldX w) (fieldNN w))) ∧
  ∀ (x : Reg) (nn : Byte) (s : State),
    (∃ t, exec (.seImm x nn) s = .next t ∧ t.v = s.v ∧
      t.pc = if getV s x = nn then s.pc + 4 else s.pc + 2) ∧
    (∃ t, exec (.sneImm x nn) s = .next t ∧ t.v = s.v ∧
      t.pc = if getV s x = nn then s.pc + 2 else s.pc + 4)

/-- 41_control_flow.md R115 and R116 (the fixed last digit: the spec's own decision D7): 5xy0 skips exactly
when V[x] = V[y], 9xy0 exactly when not; no flag. -/
def Obligations.RegisterSkipsCompareTheRegisters : Prop :=
  (∀ w : Word, w &&& 0xF00F = 0x5000 → decodeWord w = .ok (.seReg (fieldX w) (fieldY w))) ∧
  (∀ w : Word, w &&& 0xF00F = 0x9000 → decodeWord w = .ok (.sneReg (fieldX w) (fieldY w))) ∧
  ∀ (x y : Reg) (s : State),
    (∃ t, exec (.seReg x y) s = .next t ∧ t.v = s.v ∧
      t.pc = if getV s x = getV s y then s.pc + 4 else s.pc + 2) ∧
    (∃ t, exec (.sneReg x y) s = .next t ∧ t.v = s.v ∧
      t.pc = if getV s x = getV s y then s.pc + 2 else s.pc + 4)

/-- 60_exceptions.md R249 (the spec's own decision D21 names it the end of a program): at a word 1nnn at
address nnn, any number of ticks leaves all state but DT, ST and SND, which keep counting. -/
def Obligations.SelfJumpChangesTheTimersAlone : Prop :=
  ∀ (s : State) (nnn : Addr12) (n : Nat), s.fault = none → Fetches s (.jp nnn) →
    s.pc.toNat = nnn.toNat →
    core.run n s = .next { s with dt := BitVec.ofNat 8 (s.dt.toNat - n),
                                  st := BitVec.ofNat 8 (s.st.toNat - n),
                                  snd := if n = 0 then s.snd else decide (n ≤ s.st.toNat) }

/-! ### Loads, arithmetic, logic, shifts, random -/

/-- 42_arithmetic.md R142 and R144: 6xnn loads nn, 8xy0 copies V[y], into V[x] alone. -/
def Obligations.LoadImmediateAndCopyWriteTheDestination : Prop :=
  (∀ w : Word, w &&& 0xF000 = 0x6000 → decodeWord w = .ok (.ldImm (fieldX w) (fieldNN w))) ∧
  (∀ w : Word, w &&& 0xF00F = 0x8000 → decodeWord w = .ok (.ldReg (fieldX w) (fieldY w))) ∧
  (∀ (x : Reg) (nn : Byte) (s : State), ∃ t, exec (.ldImm x nn) s = .next t ∧ t.pc = s.pc + 2 ∧
    ∀ r, getV t r = if r = x then nn else getV s r) ∧
  (∀ (x y : Reg) (s : State), ∃ t, exec (.ldReg x y) s = .next t ∧ t.pc = s.pc + 2 ∧
    ∀ r, getV t r = if r = x then getV s y else getV s r)

/-- 42_arithmetic.md R143: 7xnn adds modulo 256 and writes no flag. -/
def Obligations.AddImmediateWrapsWithoutFlag : Prop :=
  (∀ w : Word, w &&& 0xF000 = 0x7000 → decodeWord w = .ok (.addImm (fieldX w) (fieldNN w))) ∧
  ∀ (x : Reg) (nn : Byte) (s : State), ∃ t, exec (.addImm x nn) s = .next t ∧ t.pc = s.pc + 2 ∧
    (getV t x).toNat = ((getV s x).toNat + nn.toNat) % 256 ∧
    ∀ r, r ≠ x → getV t r = getV s r

/-- 42_arithmetic.md R145, R146, R147: 8xy1, 8xy2, 8xy3 are OR, AND, XOR of each bit; that VF is left
alone is the spec's own decision D6. -/
def Obligations.LogicCombinesEachBit : Prop :=
  ∀ (x y : Reg) (s : State),
    (∃ t, exec (.orReg x y) s = .next t ∧ t.pc = s.pc + 2 ∧ (∀ r, r ≠ x → getV t r = getV s r) ∧
      ∀ b, (getV t x).getLsbD b = ((getV s x).getLsbD b || (getV s y).getLsbD b)) ∧
    (∃ t, exec (.andReg x y) s = .next t ∧ t.pc = s.pc + 2 ∧ (∀ r, r ≠ x → getV t r = getV s r) ∧
      ∀ b, (getV t x).getLsbD b = ((getV s x).getLsbD b && (getV s y).getLsbD b)) ∧
    (∃ t, exec (.xorReg x y) s = .next t ∧ t.pc = s.pc + 2 ∧ (∀ r, r ≠ x → getV t r = getV s r) ∧
      ∀ b, (getV t x).getLsbD b = ((getV s x).getLsbD b ^^ (getV s y).getLsbD b))

/-- 42_arithmetic.md R148 (x = F: the spec's own decision D3): 8xy4 adds modulo 256, VF is 1 exactly when
the sum exceeds 255, else 0, also when x = F. -/
def Obligations.AddRegistersSetsTheCarry : Prop :=
  ∀ (x y : Reg) (s : State), ∃ t, exec (.addReg x y) s = .next t ∧ t.pc = s.pc + 2 ∧
    (x ≠ regVF → (getV t x).toNat = ((getV s x).toNat + (getV s y).toNat) % 256) ∧
    getV t regVF = (if 255 < (getV s x).toNat + (getV s y).toNat then 1 else 0) ∧
    ∀ r, r ≠ x → r ≠ regVF → getV t r = getV s r

/-- 42_arithmetic.md R149 and R151 (x = F: the spec's own decision D3): 8xy5 and 8xy7 subtract modulo 256,
VF is 1 exactly when the subtrahend does not exceed the minuend, else 0, also when x = F. -/
def Obligations.SubtractionsSetNoBorrow : Prop :=
  ∀ (x y : Reg) (s : State),
    (∃ t, exec (.sub x y) s = .next t ∧ t.pc = s.pc + 2 ∧
      (x ≠ regVF → (getV t x).toNat = ((getV s x).toNat + 256 - (getV s y).toNat) % 256) ∧
      getV t regVF = (if (getV s y).toNat ≤ (getV s x).toNat then 1 else 0) ∧
      ∀ r, r ≠ x → r ≠ regVF → getV t r = getV s r) ∧
    (∃ t, exec (.subn x y) s = .next t ∧ t.pc = s.pc + 2 ∧
      (x ≠ regVF → (getV t x).toNat = ((getV s y).toNat + 256 - (getV s x).toNat) % 256) ∧
      getV t regVF = (if (getV s x).toNat ≤ (getV s y).toNat then 1 else 0) ∧
      ∀ r, r ≠ x → r ≠ regVF → getV t r = getV s r)

/-- 42_arithmetic.md R150 and R152 (x = F: the spec's own decision D3): 8xy6 halves V[x] and 8xyE doubles
it modulo 256, whatever y; VF takes bit 0, or bit 7 in place (0x80 or 0), and with x = F the result. -/
def Obligations.ShiftsMoveTheOutgoingBitToVF : Prop :=
  ∀ (x y : Reg) (s : State),
    (∃ t, exec (.shr x y) s = .next t ∧ t.pc = s.pc + 2 ∧
      (getV t x).toNat = (getV s x).toNat / 2 ∧
      (x ≠ regVF → (getV t regVF).toNat = (getV s x).toNat % 2) ∧
      ∀ r, r ≠ x → r ≠ regVF → getV t r = getV s r) ∧
    (∃ t, exec (.shl x y) s = .next t ∧ t.pc = s.pc + 2 ∧
      (getV t x).toNat = (getV s x).toNat * 2 % 256 ∧
      (x ≠ regVF → getV t regVF = if 128 ≤ (getV s x).toNat then 0x80 else 0x00) ∧
      ∀ r, r ≠ x → r ≠ regVF → getV t r = getV s r)

/-- 42_arithmetic.md R153 and R154 (the spec's own decision D15): Cxnn writes the draw masked by nn; bits
outside nn are 0; one byte is drawn. The draw is the free value `Config.randomByte` (log entry 5): nothing
is said of it. -/
def Obligations.RandomIsTheMaskedDraw : Prop :=
  ∀ (x : Reg) (nn : Byte) (s : State), ∃ t, exec (.rnd x nn) s = .next t ∧ t.pc = s.pc + 2 ∧
    (∀ b, (getV t x).getLsbD b = ((Config.randomByte s.draws).getLsbD b && nn.getLsbD b)) ∧
    (getV t x).toNat ≤ nn.toNat ∧ t.draws = s.draws + 1 ∧
    ∀ r, r ≠ x → getV t r = getV s r

/-! ### Index register and memory -/

/-- 43_index_memory.md R171 and R173: Annn sets I to nnn; Fx29 sets I to five times the whole byte V[x];
no flag. -/
def Obligations.IndexLoadsSetTheIndex : Prop :=
  (∀ w : Word, w &&& 0xF000 = 0xA000 → decodeWord w = .ok (.ldI (fieldNNN w))) ∧
  (∀ w : Word, w &&& 0xF0FF = 0xF029 → decodeWord w = .ok (.ldFVx (fieldX w))) ∧
  (∀ (nnn : Addr12) (s : State), ∃ t, exec (.ldI nnn) s = .next t ∧ t.pc = s.pc + 2 ∧
    t.i.toNat = nnn.toNat ∧ t.v = s.v) ∧
  (∀ (x : Reg) (s : State), ∃ t, exec (.ldFVx x) s = .next t ∧ t.pc = s.pc + 2 ∧
    t.i.toNat = (getV s x).toNat * 5 ∧ t.v = s.v)

/-- 43_index_memory.md R172: Fx1E adds V[x] to I modulo 2^16, past the memory too; that VF is left alone
is the spec's own decision D6. -/
def Obligations.AddToIndexWrapsAtSixteenBits : Prop :=
  ∀ (x : Reg) (s : State), ∃ t, exec (.addIVx x) s = .next t ∧ t.pc = s.pc + 2 ∧
    t.i.toNat = (s.i.toNat + (getV s x).toNat) % 65536 ∧ t.v = s.v

/-- 43_index_memory.md R174 (the addresses inside the memory: D1): Fx33 stores the hundreds, tens and units
of V[x] at I, I + 1, I + 2, each 0..9, changes no other byte, no register and not I. -/
def Obligations.DecimalStoreWritesTheThreeDigits : Prop :=
  ∀ (x : Reg) (s : State), AllInside s.i 3 →
    ∃ t h d u, exec (.ldBVx x) s = .next t ∧ t.pc = s.pc + 2 ∧ t.i = s.i ∧ t.v = s.v ∧
      byteAt t s.i.toNat = h ∧ byteAt t (s.i + 1).toNat = d ∧ byteAt t (s.i + 2).toNat = u ∧
      h.toNat * 100 + d.toNat * 10 + u.toNat = (getV s x).toNat ∧
      h.toNat ≤ 2 ∧ d.toNat ≤ 9 ∧ u.toNat ≤ 9 ∧
      ∀ a : Nat, a ≠ s.i.toNat → a ≠ (s.i + 1).toNat → a ≠ (s.i + 2).toNat → byteAt t a = byteAt s a

/-- 43_index_memory.md R175 (D1; that I stays is the spec's own decision D5): Fx55 stores V0..Vx at I, I +
1, …, and changes no other byte, no register and not I. -/
def Obligations.StoreRegistersWritesTheRun : Prop :=
  ∀ (x : Reg) (s : State), AllInside s.i (x.val + 1) →
    ∃ t, exec (.ldMemVx x) s = .next t ∧ t.pc = s.pc + 2 ∧ t.i = s.i ∧ t.v = s.v ∧
      (∀ r : Reg, r ≤ x → byteAt t (s.i + BitVec.ofNat 16 r.val).toNat = getV s r) ∧
      ∀ a : Nat, (∀ k ≤ x.val, a ≠ (s.i + BitVec.ofNat 16 k).toNat) → byteAt t a = byteAt s a

/-- 43_index_memory.md R176 (D1; that I stays is the spec's own decision D5): Fx65 loads V0..Vx from I,
I + 1, …, and leaves the registers above x, the memory and I. -/
def Obligations.LoadRegistersReadsTheRun : Prop :=
  ∀ (x : Reg) (s : State), AllInside s.i (x.val + 1) →
    ∃ t, exec (.ldVxMem x) s = .next t ∧ t.pc = s.pc + 2 ∧ t.i = s.i ∧ t.mem = s.mem ∧
      ∀ r : Reg, getV t r =
        if r ≤ x then byteAt s (s.i + BitVec.ofNat 16 r.val).toNat else getV s r

/-- Fx55 then, in any state with the same memory and I, Fx65 gives V0..Vx back (43_index_memory.md R175,
R176; D1, D5). -/
def Obligations.LoadAfterStoreGivesTheRegistersBack : Prop :=
  ∀ (x : Reg) (s t u : State), exec (.ldMemVx x) s = .next t →
    u.mem = t.mem → u.params = t.params → u.i = t.i →
    ∃ w, exec (.ldVxMem x) u = .next w ∧ ∀ r : Reg, r ≤ x → getV w r = getV s r

/-- 20_memory.md R54 (addresses outside: the spec's own decision D1): a write inside the memory is read
back by every kind of access and changes no other byte; an access outside faults with its address. -/
def Obligations.ReadAfterWriteGivesTheByte : Prop :=
  ∀ (s : State) (a : Addr) (b : Byte),
    (a.toNat < 4096 →
      ∃ t, writeByte s a b = .ok t ∧ (∀ k, readByte t k a = .ok b) ∧ t = { s with mem := t.mem } ∧
        ∀ (k : Access) (c : Addr), c ≠ a → readByte t k c = readByte s k c) ∧
    (4096 ≤ a.toNat →
      writeByte s a b = .error (.memoryOutOfRange s.pc a .write) ∧
        ∀ k, readByte s k a = .error (.memoryOutOfRange s.pc a k))

/-- The model's canonical form of memory (log entry 7): two memories in it that read alike at every address
of the memory are equal data. -/
def Obligations.CanonicalMemoriesThatReadAlikeAreEqual : Prop :=
  ∀ (p : Config.Params) (m m' : Memory), Memory.wf p m = true → Memory.wf p m' = true →
    (∀ a < 4096, memByte p m a = memByte p m' a) → m = m'

/-! ### Display -/

/-- 44_display.md R190 and R193: 00E0 clears every pixel and writes no flag. -/
def Obligations.ClearDarkensEveryPixel : Prop :=
  decodeWord 0x00E0 = .ok .cls ∧
  ∀ s : State, ∃ t, exec .cls s = .next t ∧ t.pc = s.pc + 2 ∧ t.v = s.v ∧
    ∀ x < 64, ∀ y < 32, pixel t.fb x y = false

/-- 44_display.md R191 and R192, for the 0 to 15 rows the rule speaks of (and up to 32): each pixel that
bit b of row r reaches becomes its old value exclusive-or the bit, every other pixel stays, and the
collision result says exactly whether a set bit met a lit pixel. -/
def Obligations.SpriteDrawIsXorWithExactCollision : Prop :=
  ∀ (ox oy : Byte) (rows : List Byte) (fb : FrameBuffer), rows.length ≤ 32 →
    (∀ r (hr : r < rows.length), ∀ b < 8,
      pixel (drawSprite ox oy rows fb).1 ((ox.toNat + b) % 64) ((oy.toNat + r) % 32) =
        (pixel fb ((ox.toNat + b) % 64) ((oy.toNat + r) % 32) ^^ rows[r].getLsbD (7 - b))) ∧
    (∀ x < 64, ∀ y < 32,
      (∀ r < rows.length, ∀ b < 8, ¬ (x = (ox.toNat + b) % 64 ∧ y = (oy.toNat + r) % 32)) →
      pixel (drawSprite ox oy rows fb).1 x y = pixel fb x y) ∧
    ((drawSprite ox oy rows fb).2 = true ↔
      ∃ r, ∃ hr : r < rows.length, ∃ b < 8,
        pixel fb ((ox.toNat + b) % 64) ((oy.toNat + r) % 32) = true ∧
          rows[r].getLsbD (7 - b) = true)

/-- 95_test_vectors.md W1 (44_display.md R191, R192): drawing a sprite twice restores the frame buffer, and
the second draw collides exactly when the first turned a pixel on. -/
def Obligations.DrawingTwiceRestoresTheScreen : Prop :=
  ∀ (ox oy : Byte) (rows : List Byte) (fb : FrameBuffer), rows.length ≤ 15 →
    (drawSprite ox oy rows (drawSprite ox oy rows fb).1).1 = fb ∧
    ((drawSprite ox oy rows (drawSprite ox oy rows fb).1).2 = true ↔
      ∃ x < 64, ∃ y < 32, pixel fb x y = false ∧ pixel (drawSprite ox oy rows fb).1 x y = true)

/-- 44_display.md R194 (D1; the flag bytes 1 and 0 are the spec's own decision D4): Dxyn draws the n bytes
at I with origin V[x], V[y] as they were, VF tells the collision in every case (0 with n = 0), no other
register, no byte of memory and not I changes. -/
def Obligations.DrawInstructionDrawsTheBytesAtTheIndex : Prop :=
  ∀ (x y : Reg) (n : Nat) (s : State), AllInside s.i n →
    ∃ t rows, exec (.drw x y n) s = .next t ∧ t.pc = s.pc + 2 ∧ t.i = s.i ∧ t.mem = s.mem ∧
      rows.length = n ∧
      (∀ k (hk : k < rows.length), rows[k] = byteAt s (s.i + BitVec.ofNat 16 k).toNat) ∧
      t.fb = (drawSprite (getV s x) (getV s y) rows s.fb).1 ∧
      getV t regVF = (if (drawSprite (getV s x) (getV s y) rows s.fb).2 then 1 else 0) ∧
      (n = 0 → getV t regVF = 0 ∧ t.fb = s.fb) ∧
      ∀ r, r ≠ regVF → getV t r = getV s r

/-! ### Keypad and timers -/

/-- 45_keypad_timers.md R210, R211, R212: Ex9E skips exactly when a key is held whose code equals the whole
byte V[x]; ExA1 skips exactly when not, no key counting as not equal; no flag. -/
def Obligations.KeySkipsCompareTheWholeByte : Prop :=
  (∀ w : Word, w &&& 0xF0FF = 0xE09E → decodeWord w = .ok (.skp (fieldX w))) ∧
  (∀ w : Word, w &&& 0xF0FF = 0xE0A1 → decodeWord w = .ok (.sknp (fieldX w))) ∧
  ∀ (x : Reg) (s : State),
    (∃ t, exec (.skp x) s = .next t ∧ t.v = s.v ∧
      ((∃ k, s.key = some k ∧ k.val = (getV s x).toNat) → t.pc = s.pc + 4) ∧
      ((∀ k, s.key = some k → k.val ≠ (getV s x).toNat) → t.pc = s.pc + 2)) ∧
    (∃ t, exec (.sknp x) s = .next t ∧ t.v = s.v ∧
      ((∃ k, s.key = some k ∧ k.val = (getV s x).toNat) → t.pc = s.pc + 2) ∧
      ((∀ k, s.key = some k → k.val ≠ (getV s x).toNat) → t.pc = s.pc + 4))

/-- 45_keypad_timers.md section 2 with 40_cycle.md section 3: Fx07 reads DT as the tick's count left it, Fx15
and Fx18 write the timers after it; no flag, and SND is not written. The order of count and access is what the
spec marks as derived. -/
def Obligations.TimerAccessReadsAndWritesTheTimers : Prop :=
  (∀ w : Word, w &&& 0xF0FF = 0xF007 → decodeWord w = .ok (.ldVxDt (fieldX w))) ∧
  (∀ w : Word, w &&& 0xF0FF = 0xF015 → decodeWord w = .ok (.ldDtVx (fieldX w))) ∧
  (∀ w : Word, w &&& 0xF0FF = 0xF018 → decodeWord w = .ok (.ldStVx (fieldX w))) ∧
  (∀ (x : Reg) (s : State),
    (∃ t, exec (.ldVxDt x) s = .next t ∧ t.pc = s.pc + 2 ∧
      ∀ r, getV t r = if r = x then s.dt else getV s r) ∧
    (∃ t, exec (.ldDtVx x) s = .next t ∧ t.pc = s.pc + 2 ∧ t.dt = getV s x ∧ t.v = s.v) ∧
    (∃ t, exec (.ldStVx x) s = .next t ∧ t.pc = s.pc + 2 ∧ t.st = getV s x ∧ t.v = s.v ∧
      t.snd = s.snd)) ∧
  (∀ (x : Reg) (s : State), s.fault = none →
    (Fetches s (.ldVxDt x) → ∃ t, step s = .next t ∧ (getV t x).toNat = s.dt.toNat - 1) ∧
    (Fetches s (.ldDtVx x) → ∃ t, step s = .next t ∧ t.dt = getV s x) ∧
    (Fetches s (.ldStVx x) → ∃ t, step s = .next t ∧ t.st = getV s x ∧
      (t.snd = true ↔ 0 < s.st.toNat)))

/-- 45_keypad_timers.md R214: Fx0A jumps to itself while no key equal to V[x] is held and goes on when one
is; it writes no register. -/
def Obligations.KeyWaitRepeatsUntilTheAwaitedKey : Prop :=
  (∀ w : Word, w &&& 0xF0FF = 0xF00A → decodeWord w = .ok (.waitKeyEq (fieldX w))) ∧
  ∀ (x : Reg) (s : State), ∃ t, exec (.waitKeyEq x) s = .next t ∧ t.v = s.v ∧
    ((∀ k, s.key = some k → k.val ≠ (getV s x).toNat) → t.pc = s.pc) ∧
    ((∃ k, s.key = some k ∧ k.val = (getV s x).toNat) → t.pc = s.pc + 2)

/-- While the awaited key is not held, any number of ticks at an Fx0A leaves all state but the timers and
SND, which keep counting; with V[x] at 16 or above this is so for every key (45_keypad_timers.md R214,
60_exceptions.md R248; D6). -/
def Obligations.KeyWaitKeepsTickingInPlace : Prop :=
  ∀ (s : State) (x : Reg) (n : Nat), s.fault = none → Fetches s (.waitKeyEq x) →
    ((∀ k, s.key = some k → k.val ≠ (getV s x).toNat) ∨ 16 ≤ (getV s x).toNat) →
    core.run n s = .next { s with dt := BitVec.ofNat 8 (s.dt.toNat - n),
                                  st := BitVec.ofNat 8 (s.st.toNat - n),
                                  snd := if n = 0 then s.snd else decide (n ≤ s.st.toNat) }

/-! ### Invariants -/

/-- Every tick keeps the invariant: the memory stays in its canonical form, inside its 4096 bytes, and the
stack within STACK_LIMIT (10_state.md R25, R31; log entry 7), and the parameters never change. -/
def Obligations.StepKeepsTheInvariant : Prop :=
  ∀ s t : State, s.Inv → step s = .next t → t.Inv ∧ t.params = s.params

/-- Every operation of the host keeps the invariant where no fault is recorded, whatever the sequence:
ticks, resets, loads and key changes in any order (60_exceptions.md R243; after a fault the state is
unspecified until a reset, D2). -/
def Obligations.HostOperationsKeepTheInvariant : Prop :=
  ∀ (f : Nat → State) (e : Nat → HostEvent) (n : Nat),
    ((f 0).fault = none → (f 0).Inv) → (∀ k < n, hostApply (e k) (f k) = .next (f (k + 1))) →
    ((f n).fault = none → (f n).Inv) ∧ (f n).params = (f 0).params
end

