-- ==== Sys2Proof/Laws/State.lean ====
section
/-! SUPPORT. One lemma for each field of the state and each named update (spec 10_state.md, 40_cycle.md
R99): what the update writes, and that it leaves every other field alone. -/

namespace Sys2Proof.Machine

open Sys2Proof

/-! ### `setV` -/

@[simp] theorem setV_v (s : State) (x : Reg) (b : Byte) : (setV s x b).v = s.v.set x b := rfl

@[simp] theorem setV_i (s : State) (x : Reg) (b : Byte) : (setV s x b).i = s.i := rfl

@[simp] theorem setV_pc (s : State) (x : Reg) (b : Byte) : (setV s x b).pc = s.pc := rfl

@[simp] theorem setV_stack (s : State) (x : Reg) (b : Byte) : (setV s x b).stack = s.stack := rfl

@[simp] theorem setV_dt (s : State) (x : Reg) (b : Byte) : (setV s x b).dt = s.dt := rfl

@[simp] theorem setV_st (s : State) (x : Reg) (b : Byte) : (setV s x b).st = s.st := rfl

@[simp] theorem setV_snd (s : State) (x : Reg) (b : Byte) : (setV s x b).snd = s.snd := rfl

@[simp] theorem setV_key (s : State) (x : Reg) (b : Byte) : (setV s x b).key = s.key := rfl

@[simp] theorem setV_fb (s : State) (x : Reg) (b : Byte) : (setV s x b).fb = s.fb := rfl

@[simp] theorem setV_mem (s : State) (x : Reg) (b : Byte) : (setV s x b).mem = s.mem := rfl

@[simp] theorem setV_fault (s : State) (x : Reg) (b : Byte) : (setV s x b).fault = s.fault := rfl

@[simp] theorem setV_params (s : State) (x : Reg) (b : Byte) :
    (setV s x b).params = s.params := rfl

@[simp] theorem setV_draws (s : State) (x : Reg) (b : Byte) : (setV s x b).draws = s.draws := rfl

/-! ### `clearScreen` -/

@[simp] theorem clearScreen_v (s : State) : (clearScreen s).v = s.v := rfl

@[simp] theorem clearScreen_i (s : State) : (clearScreen s).i = s.i := rfl

@[simp] theorem clearScreen_pc (s : State) : (clearScreen s).pc = s.pc := rfl

@[simp] theorem clearScreen_stack (s : State) : (clearScreen s).stack = s.stack := rfl

@[simp] theorem clearScreen_dt (s : State) : (clearScreen s).dt = s.dt := rfl

@[simp] theorem clearScreen_st (s : State) : (clearScreen s).st = s.st := rfl

@[simp] theorem clearScreen_snd (s : State) : (clearScreen s).snd = s.snd := rfl

@[simp] theorem clearScreen_key (s : State) : (clearScreen s).key = s.key := rfl

@[simp] theorem clearScreen_fb (s : State) : (clearScreen s).fb = FrameBuffer.dark := rfl

@[simp] theorem clearScreen_mem (s : State) : (clearScreen s).mem = s.mem := rfl

@[simp] theorem clearScreen_fault (s : State) : (clearScreen s).fault = s.fault := rfl

@[simp] theorem clearScreen_params (s : State) : (clearScreen s).params = s.params := rfl

@[simp] theorem clearScreen_draws (s : State) : (clearScreen s).draws = s.draws := rfl

/-! ### `stepTimers` -/

@[simp] theorem stepTimers_v (s : State) : (stepTimers s).v = s.v := rfl

@[simp] theorem stepTimers_i (s : State) : (stepTimers s).i = s.i := rfl

@[simp] theorem stepTimers_pc (s : State) : (stepTimers s).pc = s.pc := rfl

@[simp] theorem stepTimers_stack (s : State) : (stepTimers s).stack = s.stack := rfl

@[simp] theorem stepTimers_dt (s : State) : (stepTimers s).dt = countDown s.dt := rfl

@[simp] theorem stepTimers_st (s : State) : (stepTimers s).st = countDown s.st := rfl

@[simp] theorem stepTimers_snd (s : State) : (stepTimers s).snd = decide (s.st ≠ 0) := rfl

@[simp] theorem stepTimers_key (s : State) : (stepTimers s).key = s.key := rfl

@[simp] theorem stepTimers_fb (s : State) : (stepTimers s).fb = s.fb := rfl

@[simp] theorem stepTimers_mem (s : State) : (stepTimers s).mem = s.mem := rfl

@[simp] theorem stepTimers_fault (s : State) : (stepTimers s).fault = s.fault := rfl

@[simp] theorem stepTimers_params (s : State) : (stepTimers s).params = s.params := rfl

@[simp] theorem stepTimers_draws (s : State) : (stepTimers s).draws = s.draws := rfl

/-! ### `fetchable` -/

@[simp] theorem fetchable_v (s : State) : (fetchable s).v = s.v := rfl

@[simp] theorem fetchable_i (s : State) : (fetchable s).i = s.i := rfl

@[simp] theorem fetchable_pc (s : State) :
    (fetchable s).pc = if s.pc.toNat + 1 < Config.memSize then s.pc else Config.programStart := rfl

@[simp] theorem fetchable_stack (s : State) : (fetchable s).stack = s.stack := rfl

@[simp] theorem fetchable_dt (s : State) : (fetchable s).dt = s.dt := rfl

@[simp] theorem fetchable_st (s : State) : (fetchable s).st = s.st := rfl

@[simp] theorem fetchable_snd (s : State) : (fetchable s).snd = s.snd := rfl

@[simp] theorem fetchable_key (s : State) : (fetchable s).key = s.key := rfl

@[simp] theorem fetchable_fb (s : State) : (fetchable s).fb = s.fb := rfl

@[simp] theorem fetchable_mem (s : State) : (fetchable s).mem = s.mem := rfl

@[simp] theorem fetchable_fault (s : State) : (fetchable s).fault = none := rfl

@[simp] theorem fetchable_params (s : State) : (fetchable s).params = s.params := rfl

@[simp] theorem fetchable_draws (s : State) : (fetchable s).draws = s.draws := rfl

/-! ### `applyPolicy` -/

@[simp] theorem applyPolicy_next_pc (s : State) : (applyPolicy s .next).pc = s.pc + 2 := rfl

@[simp] theorem applyPolicy_skip_pc (s : State) : (applyPolicy s .skip).pc = s.pc + 4 := rfl

@[simp] theorem applyPolicy_jump_pc (s : State) (a : Addr) : (applyPolicy s (.jump a)).pc = a := rfl

@[simp] theorem applyPolicy_v (s : State) (p : Policy) : (applyPolicy s p).v = s.v := by
  cases p <;> rfl

@[simp] theorem applyPolicy_i (s : State) (p : Policy) : (applyPolicy s p).i = s.i := by
  cases p <;> rfl

@[simp] theorem applyPolicy_stack (s : State) (p : Policy) : (applyPolicy s p).stack = s.stack := by
  cases p <;> rfl

@[simp] theorem applyPolicy_dt (s : State) (p : Policy) : (applyPolicy s p).dt = s.dt := by
  cases p <;> rfl

@[simp] theorem applyPolicy_st (s : State) (p : Policy) : (applyPolicy s p).st = s.st := by
  cases p <;> rfl

@[simp] theorem applyPolicy_snd (s : State) (p : Policy) : (applyPolicy s p).snd = s.snd := by
  cases p <;> rfl

@[simp] theorem applyPolicy_key (s : State) (p : Policy) : (applyPolicy s p).key = s.key := by
  cases p <;> rfl

@[simp] theorem applyPolicy_fb (s : State) (p : Policy) : (applyPolicy s p).fb = s.fb := by
  cases p <;> rfl

@[simp] theorem applyPolicy_mem (s : State) (p : Policy) : (applyPolicy s p).mem = s.mem := by
  cases p <;> rfl

@[simp] theorem applyPolicy_fault (s : State) (p : Policy) : (applyPolicy s p).fault = s.fault := by
  cases p <;> rfl

@[simp] theorem applyPolicy_params (s : State) (p : Policy) : (applyPolicy s p).params = s.params := by
  cases p <;> rfl

@[simp] theorem applyPolicy_draws (s : State) (p : Policy) : (applyPolicy s p).draws = s.draws := by
  cases p <;> rfl

/-- A policy changes PC alone. -/
theorem applyPolicy_eq (s : State) (p : Policy) :
    applyPolicy s p = { s with pc := (applyPolicy s p).pc } := by
  cases p <;> rfl

end Sys2Proof.Machine
end

