-- ==== Sys2Proof/Laws/Memory.lean ====
section
/-! SUPPORT. Memory (spec 20_memory.md R50-R54): read after write, the canonical form and that every
operation keeps it, and the whole of what a run of byte accesses can do. -/

namespace Sys2Proof.Machine

open Sys2Proof

/-! ### Lookup after insert, erase and store -/

theorem memLookup_insert (a b : Nat) (c : Byte) (m : Memory) :
    memLookup (memInsert a c m) b = if a = b then some c else memLookup m b := by
  induction m with
  | nil => simp [memInsert, memLookup]
  | cons e m ih =>
    obtain ⟨k, d⟩ := e
    simp only [memInsert]
    split
    · simp [memLookup]
    · split
      · subst_vars
        simp only [memLookup]
        split <;> rfl
      · simp only [memLookup, ih]
        split <;> split <;> first | rfl | omega

/-- Nothing is listed below the first address of a rising list. -/
theorem memLookup_below {lo a : Nat} {m : Memory} (h : memRisingFrom lo m = true) (ha : a < lo) :
    memLookup m a = none := by
  induction m generalizing lo with
  | nil => rfl
  | cons e m ih =>
    obtain ⟨k, d⟩ := e
    simp only [memRisingFrom, Bool.and_eq_true, decide_eq_true_eq] at h
    rw [memLookup, if_neg (by omega), ih h.2 (by omega)]

theorem memLookup_erase (a b : Nat) (m : Memory) :
    memLookup (memErase a m) b = if a = b then none else memLookup m b := by
  induction m with
  | nil => simp [memErase, memLookup]
  | cons e m ih =>
    obtain ⟨k, d⟩ := e
    simp only [memErase]
    split
    · subst_vars
      rw [ih]
      split
      · rfl
      · rw [memLookup, if_neg ‹_›]
    · simp only [memLookup, ih]
      split <;> split <;> first | rfl | omega

/-! ### The canonical form -/

theorem Memory.wf_iff (p : Config.Params) (m : Memory) :
    Memory.wf p m = true ↔ memRisingFrom 0 m = true ∧
      ∀ c ∈ m, c.1 < Config.memSize ∧ c.2 ≠ initByte p c.1 := by
  simp [Memory.wf, List.all_eq_true]

theorem memRisingFrom_mono {lo lo' : Nat} {m : Memory} (h : memRisingFrom lo m = true)
    (hl : lo' ≤ lo) : memRisingFrom lo' m = true := by
  cases m with
  | nil => rfl
  | cons e m =>
    simp only [memRisingFrom, Bool.and_eq_true, decide_eq_true_eq] at h ⊢
    exact ⟨by omega, h.2⟩

theorem memRisingFrom_insert {lo a : Nat} {m : Memory} (c : Byte)
    (h : memRisingFrom lo m = true) (ha : lo ≤ a) : memRisingFrom lo (memInsert a c m) = true := by
  induction m generalizing lo with
  | nil => simp [memInsert, memRisingFrom, ha]
  | cons e m ih =>
    obtain ⟨k, d⟩ := e
    simp only [memRisingFrom, Bool.and_eq_true, decide_eq_true_eq] at h
    simp only [memInsert]
    split
    · simp only [memRisingFrom, Bool.and_eq_true, decide_eq_true_eq]
      exact ⟨ha, by omega, h.2⟩
    · split
      · subst_vars
        simp only [memRisingFrom, Bool.and_eq_true, decide_eq_true_eq]
        exact ⟨ha, h.2⟩
      · simp only [memRisingFrom, Bool.and_eq_true, decide_eq_true_eq]
        exact ⟨h.1, ih h.2 (by omega)⟩

theorem memRisingFrom_erase {lo : Nat} (a : Nat) {m : Memory} (h : memRisingFrom lo m = true) :
    memRisingFrom lo (memErase a m) = true := by
  induction m generalizing lo with
  | nil => rfl
  | cons e m ih =>
    obtain ⟨k, d⟩ := e
    simp only [memRisingFrom, Bool.and_eq_true, decide_eq_true_eq] at h
    simp only [memErase]
    split
    · exact memRisingFrom_mono (ih h.2) (by omega)
    · simp only [memRisingFrom, Bool.and_eq_true, decide_eq_true_eq]
      exact ⟨h.1, ih h.2⟩

theorem mem_memInsert {a : Nat} {c : Byte} {m : Memory} {e : Host.Cell}
    (h : e ∈ memInsert a c m) : e = (a, c) ∨ e ∈ m := by
  induction m with
  | nil => simpa [memInsert] using h
  | cons d m ih =>
    obtain ⟨k, w⟩ := d
    simp only [memInsert] at h
    split at h
    · simpa using h
    · split at h
      · simp only [List.mem_cons] at h ⊢
        exact h.imp_right .inr
      · simp only [List.mem_cons] at h ⊢
        rcases h with h | h
        · exact .inr (.inl h)
        · exact (ih h).imp_right .inr

theorem mem_memErase {a : Nat} {m : Memory} {e : Host.Cell} (h : e ∈ memErase a m) : e ∈ m := by
  induction m with
  | nil => exact h
  | cons d m ih =>
    obtain ⟨k, w⟩ := d
    simp only [memErase] at h
    split at h
    · exact List.mem_cons_of_mem _ (ih h)
    · rcases List.mem_cons.mp h with h | h
      · exact h ▸ List.mem_cons_self
      · exact List.mem_cons_of_mem _ (ih h)

/-- A store inside the memory keeps the canonical form. -/
theorem memStore_wf {p : Config.Params} {m : Memory} {a : Nat} (b : Byte)
    (h : Memory.wf p m = true) (ha : a < Config.memSize) : Memory.wf p (memStore p m a b) = true := by
  rw [Memory.wf_iff] at h ⊢
  unfold memStore
  split
  · exact ⟨memRisingFrom_erase a h.1, fun c hc => h.2 c (mem_memErase hc)⟩
  · refine ⟨memRisingFrom_insert b h.1 (Nat.zero_le a), fun c hc => ?_⟩
    rcases mem_memInsert hc with rfl | hc
    · exact ⟨ha, ‹_›⟩
    · exact h.2 c hc

/-- Read after store: the stored byte at its address, every other byte as before. -/
theorem memByte_store (p : Config.Params) (m : Memory) (a b : Nat) (c : Byte) :
    memByte p (memStore p m a c) b = if a = b then c else memByte p m b := by
  unfold memByte memStore
  split
  · rw [memLookup_erase]
    split <;> simp_all
  · rw [memLookup_insert]
    split <;> simp

/-! ### A run of stores by `load` -/

theorem memByte_storeRun_other (p : Config.Params) (a : Nat) (bs : List Byte) (m : Memory) (c : Nat)
    (h : c < a ∨ a + bs.length ≤ c) : memByte p (storeRun p a bs m) c = memByte p m c := by
  induction bs generalizing a m with
  | nil => rfl
  | cons b bs ih =>
    rw [List.length_cons] at h
    rw [storeRun, ih _ _ (by omega), memByte_store, if_neg (by omega)]

theorem memByte_storeRun (p : Config.Params) (a : Nat) (bs : List Byte) (m : Memory) (k : Nat)
    (h : k < bs.length) : memByte p (storeRun p a bs m) (a + k) = bs[k] := by
  induction bs generalizing a m k with
  | nil => exact absurd h (Nat.not_lt_zero _)
  | cons b bs ih =>
    rw [storeRun]
    cases k with
    | zero => rw [memByte_storeRun_other _ _ _ _ _ (by omega), memByte_store, if_pos (by omega)]; rfl
    | succ k =>
      rw [List.length_cons] at h
      rw [show a + (k + 1) = a + 1 + k by omega]
      exact ih (a + 1) _ k (by omega)

theorem storeRun_wf {p : Config.Params} {a : Nat} {bs : List Byte} {m : Memory}
    (h : a + bs.length ≤ Config.memSize) (hm : Memory.wf p m = true) :
    Memory.wf p (storeRun p a bs m) = true := by
  induction bs generalizing a m with
  | nil => exact hm
  | cons b bs ih =>
    rw [List.length_cons] at h
    exact ih (by omega) (memStore_wf b hm (by omega))

/-- Reading the memory looks at the memory and the parameters alone. -/
theorem byteAt_congr {s t : State} (hm : s.mem = t.mem) (hp : s.params = t.params) (a : Nat) :
    byteAt s a = byteAt t a := by
  simp [byteAt, hm, hp]

@[simp] theorem byteAt_setV (s : State) (x : Reg) (b : Byte) (a : Nat) :
    byteAt (setV s x b) a = byteAt s a := rfl

@[simp] theorem byteAt_applyPolicy (s : State) (p : Policy) (a : Nat) :
    byteAt (applyPolicy s p) a = byteAt s a := byteAt_congr (by simp) (by simp) a

@[simp] theorem byteAt_stepTimers (s : State) (a : Nat) : byteAt (stepTimers s) a = byteAt s a := rfl

end Sys2Proof.Machine
end

