-- ==== Sys2Proof/Laws/Access.lean ====
section
/-! SUPPORT. The whole of what a run of byte accesses can do (spec 20_memory.md R53, R54,
43_index_memory.md R170, 60_exceptions.md R232, R236): it completes exactly when every address is inside
the memory, and else stops at the first one outside. -/

namespace Sys2Proof.Machine

open Sys2Proof

theorem addr_succ (a : Addr) (k : Nat) : a + BitVec.ofNat 16 (k + 1) = a + 1 + BitVec.ofNat 16 k := by
  apply BitVec.eq_of_toNat_eq
  have h1 : (1 : Addr).toNat = 1 := rfl
  simp only [BitVec.toNat_add, BitVec.toNat_ofNat]
  omega

@[simp] theorem addr_zero (a : Addr) : a + BitVec.ofNat 16 0 = a := by simp

@[simp] theorem allInside_zero (a : Addr) : AllInside a 0 := fun _ h => absurd h (Nat.not_lt_zero _)

theorem allInside_succ (a : Addr) (n : Nat) :
    AllInside a (n + 1) ↔ a.toNat < Config.memSize ∧ AllInside (a + 1) n := by
  constructor
  · intro h
    refine ⟨by simpa using h 0 (by omega), fun k hk => ?_⟩
    rw [← addr_succ]
    exact h (k + 1) (by omega)
  · rintro ⟨h0, h⟩ k hk
    cases k with
    | zero => simpa using h0
    | succ k =>
      rw [addr_succ]
      exact h k (by omega)

theorem not_firstOutside_zero (a b : Addr) : ¬ FirstOutside a 0 b :=
  fun ⟨_, h, _⟩ => absurd h (Nat.not_lt_zero _)

theorem firstOutside_succ (a b : Addr) (n : Nat) :
    FirstOutside a (n + 1) b ↔
      (b = a ∧ Config.memSize ≤ a.toNat) ∨
        (a.toNat < Config.memSize ∧ FirstOutside (a + 1) n b) := by
  constructor
  · rintro ⟨k, hk, hb, hout, hin⟩
    cases k with
    | zero =>
      rw [addr_zero] at hb
      exact .inl ⟨hb, hb ▸ hout⟩
    | succ k =>
      rw [allInside_succ] at hin
      exact .inr ⟨hin.1, k, by omega, by rw [hb, addr_succ], hout, hin.2⟩
  · rintro (⟨hb, hout⟩ | ⟨h0, k, hk, hb, hout, hin⟩)
    · exact ⟨0, by omega, by rw [hb, addr_zero], hb ▸ hout, allInside_zero a⟩
    · exact ⟨k + 1, by omega, by rw [hb, addr_succ], hout, (allInside_succ a k).mpr ⟨h0, hin⟩⟩

/-- Either all addresses are inside, or there is a first one outside. -/
theorem allInside_or_firstOutside (a : Addr) (n : Nat) :
    AllInside a n ∨ ∃ b, FirstOutside a n b := by
  induction n generalizing a with
  | zero => exact .inl (allInside_zero a)
  | succ n ih =>
    by_cases h : a.toNat < Config.memSize
    · rcases ih (a + 1) with h' | ⟨b, h'⟩
      · exact .inl ((allInside_succ a n).mpr ⟨h, h'⟩)
      · exact .inr ⟨b, (firstOutside_succ a b n).mpr (.inr ⟨h, h'⟩)⟩
    · exact .inr ⟨a, (firstOutside_succ a a n).mpr (.inl ⟨rfl, by omega⟩)⟩

theorem not_allInside_of_firstOutside {a b : Addr} {n : Nat} (h : FirstOutside a n b) :
    ¬ AllInside a n := by
  obtain ⟨k, hk, hb, hout, -⟩ := h
  intro hin
  have := hin k hk
  rw [← hb] at this
  omega

/-! ### Single accesses -/

theorem readByte_inside {s : State} {a : Addr} (k : Access) (h : a.toNat < Config.memSize) :
    readByte s k a = .ok (byteAt s a.toNat) := if_pos h

theorem readByte_outside {s : State} {a : Addr} (k : Access) (h : Config.memSize ≤ a.toNat) :
    readByte s k a = .error (.memoryOutOfRange s.pc a k) := if_neg (by omega)

theorem writeByte_inside {s : State} {a : Addr} (b : Byte) (h : a.toNat < Config.memSize) :
    writeByte s a b = .ok { s with mem := memStore s.params s.mem a.toNat b } := if_pos h

theorem writeByte_outside {s : State} {a : Addr} (b : Byte) (h : Config.memSize ≤ a.toNat) :
    writeByte s a b = .error (.memoryOutOfRange s.pc a .write) := if_neg (by omega)

/-! ### Runs of reads -/

/-- The bytes at `a, a +16 1, …`. -/
def bytesFrom (s : State) (a : Addr) (n : Nat) : List Byte :=
  (List.range n).map fun k => byteAt s (a + BitVec.ofNat 16 k).toNat

theorem bytesFrom_succ (s : State) (a : Addr) (n : Nat) :
    bytesFrom s a (n + 1) = byteAt s a.toNat :: bytesFrom s (a + 1) n := by
  simp only [bytesFrom, List.range_succ_eq_map, List.map_cons, List.map_map, addr_zero]
  congr 1
  apply List.map_congr_left
  intro k _
  simp only [Function.comp_apply, Nat.succ_eq_add_one, addr_succ]

@[simp] theorem length_bytesFrom (s : State) (a : Addr) (n : Nat) : (bytesFrom s a n).length = n := by
  simp [bytesFrom]

theorem readBytes_inside {s : State} {a : Addr} {n : Nat} (h : AllInside a n) :
    readBytes s a n = .ok (bytesFrom s a n) := by
  induction n generalizing a with
  | zero => rfl
  | succ n ih =>
    rw [allInside_succ] at h
    rw [readBytes, readByte_inside _ h.1, bytesFrom_succ]
    simp only [ih h.2]

theorem readBytes_outside {s : State} {a b : Addr} {n : Nat} (h : FirstOutside a n b) :
    readBytes s a n = .error (.memoryOutOfRange s.pc b .read) := by
  induction n generalizing a with
  | zero => exact absurd h (not_firstOutside_zero a b)
  | succ n ih =>
    rcases (firstOutside_succ a b n).mp h with ⟨rfl, h⟩ | ⟨h0, h⟩
    · rw [readBytes, readByte_outside _ h]
    · rw [readBytes, readByte_inside _ h0]
      simp only [ih h]

/-- All that a run of reads can do. -/
theorem readBytes_cases (s : State) (a : Addr) (n : Nat) :
    (AllInside a n ∧ readBytes s a n = .ok (bytesFrom s a n)) ∨
      ∃ b, FirstOutside a n b ∧ readBytes s a n = .error (.memoryOutOfRange s.pc b .read) := by
  rcases allInside_or_firstOutside a n with h | ⟨b, h⟩
  · exact .inl ⟨h, readBytes_inside h⟩
  · exact .inr ⟨b, h, readBytes_outside h⟩

/-! ### Runs of writes -/

/-- The memory after a run of stores at `a, a +16 1, …`. -/
def memAfter (p : Config.Params) (a : Addr) : List Byte → Memory → Memory
  | [], m => m
  | b :: bs, m => memAfter p (a + 1) bs (memStore p m a.toNat b)

theorem writeBytes_inside {s : State} {a : Addr} {bs : List Byte} (h : AllInside a bs.length) :
    writeBytes s a bs = .ok { s with mem := memAfter s.params a bs s.mem } := by
  induction bs generalizing a s with
  | nil => rfl
  | cons b bs ih =>
    rw [List.length_cons, allInside_succ] at h
    rw [writeBytes, writeByte_inside _ h.1]
    simp only [ih h.2, memAfter]

theorem writeBytes_outside {s : State} {a b : Addr} {bs : List Byte}
    (h : FirstOutside a bs.length b) :
    writeBytes s a bs = .error (.memoryOutOfRange s.pc b .write) := by
  induction bs generalizing a s with
  | nil => exact absurd h (not_firstOutside_zero a b)
  | cons c bs ih =>
    rcases (firstOutside_succ a b bs.length).mp h with ⟨rfl, h⟩ | ⟨h0, h⟩
    · rw [writeBytes, writeByte_outside _ h]
    · rw [writeBytes, writeByte_inside _ h0]
      simp only [ih h]

/-- All that a run of writes can do. -/
theorem writeBytes_cases (s : State) (a : Addr) (bs : List Byte) :
    (AllInside a bs.length ∧
        writeBytes s a bs = .ok { s with mem := memAfter s.params a bs s.mem }) ∨
      ∃ b, FirstOutside a bs.length b ∧
        writeBytes s a bs = .error (.memoryOutOfRange s.pc b .write) := by
  rcases allInside_or_firstOutside a bs.length with h | ⟨b, h⟩
  · exact .inl ⟨h, writeBytes_inside h⟩
  · exact .inr ⟨b, h, writeBytes_outside h⟩

theorem memAfter_wf {p : Config.Params} {a : Addr} {bs : List Byte} {m : Memory}
    (h : AllInside a bs.length) (hm : Memory.wf p m = true) :
    Memory.wf p (memAfter p a bs m) = true := by
  induction bs generalizing a m with
  | nil => exact hm
  | cons b bs ih =>
    rw [List.length_cons, allInside_succ] at h
    exact ih h.2 (memStore_wf b hm h.1)

/-- Bytes outside the run keep their value. -/
theorem memByte_memAfter_other {p : Config.Params} {a : Addr} {bs : List Byte} {m : Memory} {c : Nat}
    (h : ∀ k < bs.length, c ≠ (a + BitVec.ofNat 16 k).toNat) :
    memByte p (memAfter p a bs m) c = memByte p m c := by
  induction bs generalizing a m with
  | nil => rfl
  | cons b bs ih =>
    rw [memAfter, ih, memByte_store, if_neg]
    · simpa [eq_comm] using h 0 (by simp)
    · intro k hk
      rw [← addr_succ]
      exact h (k + 1) (by simpa using hk)

/-- The k-th address of a run of at most 65536 holds its k-th byte. -/
theorem memByte_memAfter {p : Config.Params} {a : Addr} {bs : List Byte} {m : Memory} {k : Nat}
    (hlen : bs.length ≤ 65536) (hk : k < bs.length) :
    memByte p (memAfter p a bs m) (a + BitVec.ofNat 16 k).toNat = bs[k] := by
  induction bs generalizing a m k with
  | nil => exact absurd hk (Nat.not_lt_zero _)
  | cons b bs ih =>
    simp only [List.length_cons] at hlen hk
    cases k with
    | zero =>
      rw [memAfter, memByte_memAfter_other, memByte_store, if_pos (by simp)]
      · rfl
      · intro j hj
        have := a.isLt
        have h1 : (1 : Addr).toNat = 1 := rfl
        simp only [BitVec.toNat_add, BitVec.toNat_ofNat]
        omega
    | succ k =>
      rw [memAfter, addr_succ]
      exact ih (by omega) (by omega)

end Sys2Proof.Machine
end

