-- ==== Sys2Proof/Laws/Decode.lean ====
section
/-! SUPPORT. The fields of an encoded word, of a word of two bytes, and how a field equation reads as a
mask equation (spec 30_encoding.md R71, R72, R74; 20_memory.md R55). -/

namespace Sys2Proof

/-! ### Each form gives back its fields -/

@[simp] theorem fieldP4_formNNN (p : BitVec 4) (a : Addr12) : fieldP4 (formNNN p a) = p := by
  ext i hi
  interval_cases i <;> simp [fieldP4, formNNN]

@[simp] theorem fieldNNN_formNNN (p : BitVec 4) (a : Addr12) : fieldNNN (formNNN p a) = a := by
  ext i hi
  interval_cases i <;> simp [fieldNNN, formNNN]

@[simp] theorem fieldP4_formXNN (p : BitVec 4) (x : Reg) (b : Byte) :
    fieldP4 (formXNN p x b) = p := by
  ext i hi
  interval_cases i <;> simp [fieldP4, formXNN]

@[simp] theorem fieldNN_formXNN (p : BitVec 4) (x : Reg) (b : Byte) :
    fieldNN (formXNN p x b) = b := by
  ext i hi
  interval_cases i <;> simp [fieldNN, formXNN]

@[simp] theorem fieldX_formXNN (p : BitVec 4) (x : Reg) (b : Byte) : fieldX (formXNN p x b) = x := by
  have h : (formXNN p x b).extractLsb' 8 4 = regField x := by
    ext i hi
    interval_cases i <;> simp [formXNN]
  simp [fieldX, h, regField]

@[simp] theorem fieldP4_formXYN (p : BitVec 4) (x y : Reg) (n : BitVec 4) :
    fieldP4 (formXYN p x y n) = p := by
  ext i hi
  interval_cases i <;> simp [fieldP4, formXYN]

@[simp] theorem fieldN_formXYN (p : BitVec 4) (x y : Reg) (n : BitVec 4) :
    fieldN (formXYN p x y n) = n := by
  ext i hi
  interval_cases i <;> simp [fieldN, formXYN]

@[simp] theorem fieldX_formXYN (p : BitVec 4) (x y : Reg) (n : BitVec 4) :
    fieldX (formXYN p x y n) = x := by
  have h : (formXYN p x y n).extractLsb' 8 4 = regField x := by
    ext i hi
    interval_cases i <;> simp [formXYN]
  simp [fieldX, h, regField]

@[simp] theorem fieldY_formXYN (p : BitVec 4) (x y : Reg) (n : BitVec 4) :
    fieldY (formXYN p x y n) = y := by
  have h : (formXYN p x y n).extractLsb' 4 4 = regField y := by
    ext i hi
    interval_cases i <;> simp [formXYN]
  simp [fieldY, h, regField]

/-! ### A word is the form of its fields -/

theorem formNNN_fields (w : Word) : formNNN (fieldP4 w) (fieldNNN w) = w := by
  ext i hi
  interval_cases i <;> simp [fieldP4, fieldNNN, formNNN]

theorem regField_fieldX (w : Word) : regField (fieldX w) = w.extractLsb' 8 4 := rfl

theorem regField_fieldY (w : Word) : regField (fieldY w) = w.extractLsb' 4 4 := rfl

theorem formXNN_fields (w : Word) : formXNN (fieldP4 w) (fieldX w) (fieldNN w) = w := by
  rw [formXNN, regField_fieldX]
  ext i hi
  interval_cases i <;> simp [fieldP4, fieldNN]

theorem formXYN_fields (w : Word) : formXYN (fieldP4 w) (fieldX w) (fieldY w) (fieldN w) = w := by
  rw [formXYN, regField_fieldX, regField_fieldY]
  ext i hi
  interval_cases i <;> simp [fieldP4, fieldN]

/-! ### The masks of the table keep the fixed digits -/

theorem mask_formNNN (p : BitVec 4) (a : Addr12) : formNNN p a &&& 0xF000 = formNNN p 0 := by
  ext i hi
  interval_cases i <;> simp [formNNN]

theorem mask_formXNN (p : BitVec 4) (x : Reg) (b : Byte) :
    formXNN p x b &&& 0xF000 = formXNN p 0 0 := by
  ext i hi
  interval_cases i <;> simp [formXNN, regField]

theorem maskSub_formXNN (p : BitVec 4) (x : Reg) (b : Byte) :
    formXNN p x b &&& 0xF0FF = formXNN p 0 b := by
  ext i hi
  interval_cases i <;> simp [formXNN, regField]

theorem mask_formXYN (p : BitVec 4) (x y : Reg) (n : BitVec 4) :
    formXYN p x y n &&& 0xF000 = formXYN p 0 0 0 := by
  ext i hi
  interval_cases i <;> simp [formXYN, regField]

theorem maskSub_formXYN (p : BitVec 4) (x y : Reg) (n : BitVec 4) :
    formXYN p x y n &&& 0xF00F = formXYN p 0 0 n := by
  ext i hi
  interval_cases i <;> simp [formXYN, regField]

@[simp] theorem fieldP4_mask (w : Word) : fieldP4 (w &&& 0xF000) = fieldP4 w := by
  ext i hi
  interval_cases i <;> simp [fieldP4]

@[simp] theorem fieldP4_maskN (w : Word) : fieldP4 (w &&& 0xF00F) = fieldP4 w := by
  ext i hi
  interval_cases i <;> simp [fieldP4]

@[simp] theorem fieldN_maskN (w : Word) : fieldN (w &&& 0xF00F) = fieldN w := by
  ext i hi
  interval_cases i <;> simp [fieldN]

@[simp] theorem fieldP4_maskNN (w : Word) : fieldP4 (w &&& 0xF0FF) = fieldP4 w := by
  ext i hi
  interval_cases i <;> simp [fieldP4]

@[simp] theorem fieldNN_maskNN (w : Word) : fieldNN (w &&& 0xF0FF) = fieldNN w := by
  ext i hi
  interval_cases i <;> simp [fieldNN]

/-! ### Bytes and words -/

@[simp] theorem highByte_wordOfBytes (hi lo : Byte) : highByte (wordOfBytes hi lo) = hi := by
  ext i h
  interval_cases i <;> simp [highByte, wordOfBytes]

@[simp] theorem lowByte_wordOfBytes (hi lo : Byte) : lowByte (wordOfBytes hi lo) = lo := by
  ext i h
  interval_cases i <;> simp [lowByte, wordOfBytes]

@[simp] theorem wordOfBytes_bytes (w : Word) : wordOfBytes (highByte w) (lowByte w) = w := by
  ext i h
  interval_cases i <;> simp [wordOfBytes, highByte, lowByte]

/-- A decoded byte sequence holds exactly one word before the rest. -/
theorem decode_two (hi lo : Byte) (i : Instr) (rest : List Byte) :
    decode (hi :: lo :: rest) = .ok (i, rest) ↔ decodeWord (wordOfBytes hi lo) = .ok i := by
  cases h : decodeWord (wordOfBytes hi lo) <;> simp [decode, h]

end Sys2Proof
end

