-- ==== Sys2Proof/Laws/Display.lean ====
section
/-! SUPPORT. The frame buffer (spec 44_display.md R190-R192): one pixel after a write, and the sprite draw
as one run of plots over points that no two of which are the same pixel. -/

namespace Sys2Proof.Machine

open Sys2Proof

/-- The pixel that coordinates name, both axes wrapped (R191). -/
def pixelKey (x y : Nat) : Nat × Nat := (x % 64, y % 32)

theorem pixel_setPixel (fb : FrameBuffer) (x y x' y' : Nat) (on : Bool) :
    pixel (setPixel fb x y on) x' y' =
      if pixelKey x y = pixelKey x' y' then on else pixel fb x' y' := by
  simp only [pixel, setPixel, pixelKey, Prod.mk.injEq, Vector.getElem_set]
  by_cases hy : y % 32 = y' % 32
  · by_cases hx : x % 64 = x' % 64
    · simp [hx, hy]
    · simp [hx, hy]
  · simp [hy]

/-- Coordinates that name one pixel read alike. -/
theorem pixel_congr (fb : FrameBuffer) {x y x' y' : Nat} (h : pixelKey x y = pixelKey x' y') :
    pixel fb x y = pixel fb x' y' := by
  simp only [pixelKey, Prod.mk.injEq] at h
  simp only [pixel, h.1, h.2]

/-- Two frame buffers with equal pixels are equal. -/
theorem frameBuffer_ext {fb fb' : FrameBuffer}
    (h : ∀ x < 64, ∀ y < 32, pixel fb x y = pixel fb' x y) : fb = fb' := by
  apply Vector.ext
  intro y hy
  apply Vector.ext
  intro x hx
  have := h x hx y hy
  simpa only [pixel, Nat.mod_eq_of_lt hx, Nat.mod_eq_of_lt hy] using this

@[simp] theorem pixel_dark (x y : Nat) : pixel FrameBuffer.dark x y = false := by
  simp [pixel, FrameBuffer.dark]

/-! ### The draw as one run of plots -/

/-- A point of a sprite: its coordinates before wrapping, and its bit. -/
abbrev SpritePoint := Nat × Nat × Bool

/-- The run of plots over a list of points. -/
def plotAll (qs : List SpritePoint) (acc : FrameBuffer × Bool) : FrameBuffer × Bool :=
  qs.foldl (fun acc q => plot q.1 q.2.1 q.2.2 acc) acc

/-- The points of a sprite in drawing order, its first row at `y`. -/
def spritePoints (ox : Nat) : Nat → List Byte → List SpritePoint
  | _, [] => []
  | y, row :: rows =>
    (List.range 8).map (fun b => (ox + b, y, spriteBit row b)) ++ spritePoints ox (y + 1) rows

theorem drawRows_eq_plotAll (ox y : Nat) (rows : List Byte) (acc : FrameBuffer × Bool) :
    drawRows ox y rows acc = plotAll (spritePoints ox y rows) acc := by
  induction rows generalizing y acc with
  | nil => rfl
  | cons row rows ih =>
    rw [drawRows, ih, spritePoints, plotAll, plotAll, List.foldl_append, List.foldl_map]
    rfl

theorem mem_spritePoints {ox y : Nat} {rows : List Byte} {q : SpritePoint} :
    q ∈ spritePoints ox y rows ↔
      ∃ r, ∃ h : r < rows.length, ∃ b < 8, q = (ox + b, y + r, spriteBit rows[r] b) := by
  induction rows generalizing y with
  | nil => simp [spritePoints]
  | cons row rows ih =>
    rw [spritePoints, List.mem_append, ih]
    constructor
    · rintro (h | ⟨r, hr, b, hb, rfl⟩)
      · obtain ⟨b, hb, rfl⟩ := List.mem_map.mp h
        exact ⟨0, by simp, b, List.mem_range.mp hb, rfl⟩
      · exact ⟨r + 1, by simpa using hr, b, hb, by simp [Nat.add_assoc, Nat.add_comm 1]⟩
    · rintro ⟨r, hr, b, hb, rfl⟩
      cases r with
      | zero => exact .inl (List.mem_map.mpr ⟨b, List.mem_range.mpr hb, rfl⟩)
      | succ r =>
        exact .inr ⟨r, by simpa using hr, b, hb, by simp [Nat.add_assoc, Nat.add_comm 1]⟩

/-- No two points of a sprite of at most 32 rows are the same pixel (R192). -/
theorem nodup_spritePoints (ox y : Nat) (rows : List Byte) (h : rows.length ≤ 32) :
    ((spritePoints ox y rows).map fun q => pixelKey q.1 q.2.1).Nodup := by
  induction rows generalizing y with
  | nil => simp [spritePoints]
  | cons row rows ih =>
    simp only [List.length_cons] at h
    rw [spritePoints, List.map_append, List.map_map]
    refine List.Nodup.append ?_ (ih _ (by omega)) ?_
    · refine List.Nodup.map_on (fun a ha b hb hab => ?_) List.nodup_range
      simp only [List.mem_range, Function.comp_apply, pixelKey, Prod.mk.injEq] at ha hb hab
      omega
    · intro k hk hk'
      obtain ⟨a, ha, rfl⟩ := List.mem_map.mp hk
      obtain ⟨q, hq, hqk⟩ := List.mem_map.mp hk'
      obtain ⟨r, hr, b, hb, rfl⟩ := mem_spritePoints.mp hq
      simp only [Function.comp_apply, pixelKey, Prod.mk.injEq] at hqk
      omega

/-- All that a run of plots over distinct pixels does: it inverts the pixels of its set bits, leaves every
other pixel, and collides exactly when a set bit met a lit pixel. -/
theorem plotAll_spec (qs : List SpritePoint) (fb : FrameBuffer) (c : Bool)
    (hnd : (qs.map fun q => pixelKey q.1 q.2.1).Nodup) :
    (∀ q ∈ qs, pixel (plotAll qs (fb, c)).1 q.1 q.2.1 = (pixel fb q.1 q.2.1 ^^ q.2.2)) ∧
    (∀ x y, pixelKey x y ∉ qs.map (fun q => pixelKey q.1 q.2.1) →
      pixel (plotAll qs (fb, c)).1 x y = pixel fb x y) ∧
    ((plotAll qs (fb, c)).2 = true ↔
      c = true ∨ ∃ q ∈ qs, pixel fb q.1 q.2.1 = true ∧ q.2.2 = true) := by
  induction qs generalizing fb c with
  | nil => simp [plotAll]
  | cons q qs ih =>
    rw [List.map_cons, List.nodup_cons] at hnd
    obtain ⟨hq, hnd⟩ := hnd
    have hstep : plotAll (q :: qs) (fb, c) = plotAll qs (plot q.1 q.2.1 q.2.2 (fb, c)) := rfl
    have hfb : (plot q.1 q.2.1 q.2.2 (fb, c)).1 =
        setPixel fb q.1 q.2.1 (pixel fb q.1 q.2.1 ^^ q.2.2) := rfl
    obtain ⟨ih1, ih2, ih3⟩ := ih (plot q.1 q.2.1 q.2.2 (fb, c)).1
      (plot q.1 q.2.1 q.2.2 (fb, c)).2 hnd
    rw [hstep]
    have hother : ∀ p ∈ qs, pixel (plot q.1 q.2.1 q.2.2 (fb, c)).1 p.1 p.2.1 = pixel fb p.1 p.2.1 := by
      intro p hp
      rw [hfb, pixel_setPixel, if_neg]
      intro h
      exact hq (List.mem_map.mpr ⟨p, hp, h.symm⟩)
    refine ⟨?_, ?_, ?_⟩
    · intro p hp
      rcases List.mem_cons.mp hp with rfl | hp
      · rw [ih2 _ _ hq, hfb, pixel_setPixel, if_pos rfl]
      · rw [ih1 p hp, hother p hp]
    · intro x y hxy
      rw [List.map_cons, List.mem_cons, not_or] at hxy
      rw [ih2 x y hxy.2, hfb, pixel_setPixel, if_neg (Ne.symm hxy.1)]
    · rw [ih3]
      have hc : (plot q.1 q.2.1 q.2.2 (fb, c)).2 = true ↔
          c = true ∨ (pixel fb q.1 q.2.1 = true ∧ q.2.2 = true) := by
        simp only [plot]
        cases c <;> cases pixel fb q.1 q.2.1 <;> cases q.2.2 <;> simp
      rw [hc]
      simp only [List.mem_cons, exists_eq_or_imp]
      constructor
      · rintro ((h | h) | ⟨p, hp, h⟩)
        · exact .inl h
        · exact .inr (.inl h)
        · rw [hother p hp] at h
          exact .inr (.inr ⟨p, hp, h⟩)
      · rintro (h | h | ⟨p, hp, h⟩)
        · exact .inl (.inl h)
        · exact .inl (.inr h)
        · exact .inr ⟨p, hp, by rw [hother p hp]; exact h⟩

end Sys2Proof.Machine
end

