-- ==== Sys2Proof/Laws/Registers.lean ====
section
/-! SUPPORT. The register accessors (spec 10_state.md R20): what a write gives back, and what a run of
writes leaves. -/

namespace Sys2Proof.Machine

open Sys2Proof

/-- A write is read back, and leaves every other register alone. -/
theorem getV_setV (s : State) (x r : Reg) (b : Byte) :
    getV (setV s x b) r = if r = x then b else getV s r := by
  simp only [getV, setV, Fin.getElem_fin, Vector.getElem_set, Fin.ext_iff, eq_comm]

@[simp] theorem getV_setV_same (s : State) (x : Reg) (b : Byte) : getV (setV s x b) x = b := by
  simp [getV_setV]

theorem getV_setV_other (s : State) {x r : Reg} (b : Byte) (h : r ≠ x) :
    getV (setV s x b) r = getV s r := by
  simp [getV_setV, h]

@[simp] theorem getV_applyPolicy (s : State) (p : Policy) (r : Reg) :
    getV (applyPolicy s p) r = getV s r := by
  simp [getV]

/-- Reading a register looks at the registers alone. -/
theorem getV_congr {s t : State} (h : s.v = t.v) (r : Reg) : getV s r = getV t r := by
  simp [getV, h]

/-- A run of register writes changes the registers alone. -/
theorem setRegsFrom_eq (k : Nat) (bs : List Byte) (s : State) :
    setRegsFrom k bs s = { s with v := (setRegsFrom k bs s).v } := by
  induction bs generalizing k s with
  | nil => rfl
  | cons b bs ih =>
    rw [setRegsFrom, ih]
    rfl

/-- A run of register writes from `V[k]` on, inside V0..VF: the registers it covers hold its bytes. -/
theorem getV_setRegsFrom (k : Nat) (bs : List Byte) (s : State) (r : Reg)
    (hk : k + bs.length ≤ 16) :
    getV (setRegsFrom k bs s) r =
      if h : k ≤ r.val ∧ r.val - k < bs.length then bs[r.val - k]'h.2 else getV s r := by
  induction bs generalizing k s with
  | nil => simp [setRegsFrom]
  | cons b bs ih =>
    simp only [List.length_cons] at hk
    rw [setRegsFrom, ih _ _ (by omega), getV_setV]
    have hmod : (Fin.ofNat 16 k).val = k := Nat.mod_eq_of_lt (by omega)
    rcases Nat.lt_trichotomy r.val k with hlt | heq | hgt
    · have : r ≠ Fin.ofNat 16 k := by rw [Ne, Fin.ext_iff, hmod]; omega
      rw [dif_neg (by omega), dif_neg (by omega), if_neg this]
    · have : r = Fin.ofNat 16 k := by rw [Fin.ext_iff, hmod, heq]
      rw [dif_neg (by omega), dif_pos (by simp [heq]), if_pos this]
      simp [heq]
    · have : r ≠ Fin.ofNat 16 k := by rw [Ne, Fin.ext_iff, hmod]; omega
      rw [if_neg this]
      by_cases hr : r.val - k < bs.length + 1
      · rw [dif_pos (by omega), dif_pos (by simp; omega)]
        have : r.val - k = r.val - (k + 1) + 1 := by omega
        simp [this]
      · rw [dif_neg (by omega), dif_neg (by simp; omega)]

@[simp] theorem length_regsUpTo (s : State) (x : Reg) : (regsUpTo s x).length = x.val + 1 := by
  simp [regsUpTo]

/-- The listed registers, in order. -/
theorem getElem_regsUpTo (s : State) (x : Reg) (k : Nat) (h : k < (regsUpTo s x).length) :
    (regsUpTo s x)[k] = getV s (Fin.ofNat 16 k) := by
  simp [regsUpTo]

end Sys2Proof.Machine
end

