-- ==== Sys2Proof/Laws/Step.lean ====
section
/-! SUPPORT. What one tick can do (spec 40_cycle.md R91, R100, R101): the fetch, and the inversion of the
step into the handler it ran. -/

namespace Sys2Proof.Machine

open Sys2Proof

/-- The word that the bytes at PC make. -/
def wordAt (s : State) : Word :=
  wordOfBytes (byteAt s s.pc.toNat) (byteAt s (s.pc + 1).toNat)

/-- All that the fetch can do (R91). -/
theorem fetch_cases (s : State) :
    (AllInside s.pc 2 ∧ fetch s = .ok (wordAt s)) ∨
      ∃ b, FirstOutside s.pc 2 b ∧ fetch s = .error (.memoryOutOfRange s.pc b .fetch) := by
  by_cases h0 : s.pc.toNat < Config.memSize
  · by_cases h1 : (s.pc + 1).toNat < Config.memSize
    · refine .inl ⟨?_, ?_⟩
      · simp only [allInside_succ, allInside_zero, and_true]
        exact ⟨h0, h1⟩
      · simp only [fetch, readByte_inside _ h0, readByte_inside _ h1, wordAt]
    · refine .inr ⟨s.pc + 1, ?_, ?_⟩
      · exact (firstOutside_succ _ _ _).mpr
          (.inr ⟨h0, (firstOutside_succ _ _ _).mpr (.inl ⟨rfl, by omega⟩)⟩)
      · simp only [fetch, readByte_inside _ h0, readByte_outside _ (Nat.le_of_not_lt h1)]
  · refine .inr ⟨s.pc, (firstOutside_succ _ _ _).mpr (.inl ⟨rfl, by omega⟩), ?_⟩
    simp only [fetch, readByte_outside _ (Nat.le_of_not_lt h0)]

/-- A tick after a fault reports the recorded fault again (R101). -/
theorem step_of_fault {s : State} {r : Fault} (h : s.fault = some r) : step s = .fault r := by
  simp only [step, h, raise]

/-- A tick whose fetch faults ends in that fault. -/
theorem step_of_fetch_error {s : State} {r : Fault} (h : s.fault = none) (hf : fetch s = .error r) :
    step s = .fault r := by
  simp only [step, h, hf, raise]

/-- A tick whose fetch gives a word runs that word after the timer step (R100). -/
theorem step_of_fetch_ok {s : State} {w : Word} (h : s.fault = none) (hf : fetch s = .ok w) :
    step s = runWord w (stepTimers s) := by
  simp only [step, h, hf]

theorem runWord_ok {w : Word} {i : Instr} (h : decodeWord w = .ok i) (s : State) :
    runWord w s = exec i s := by
  simp only [runWord, h]

theorem runWord_error {w : Word} {e : DecodeError} (h : decodeWord w = .error e) (s : State) :
    runWord w s = .next { s with pc := s.pc + 2 } := by
  simp only [runWord, h, execUnrecognised, applyPolicy]

/-- All that a tick with a next state can be. -/
theorem step_next_cases {s t : State} (h : step s = .next t) :
    s.fault = none ∧ ∃ w, fetch s = .ok w ∧
      ((∃ i, decodeWord w = .ok i ∧ exec i (stepTimers s) = .next t) ∨
        (∃ e, decodeWord w = .error e ∧ t = { stepTimers s with pc := s.pc + 2 })) := by
  cases hf : s.fault with
  | some r => simp [step_of_fault hf] at h
  | none =>
    refine ⟨rfl, ?_⟩
    rcases fetch_cases s with ⟨-, hw⟩ | ⟨b, -, hb⟩
    · rw [step_of_fetch_ok hf hw] at h
      refine ⟨_, hw, ?_⟩
      cases hd : decodeWord (wordAt s) with
      | ok i =>
        rw [runWord_ok hd] at h
        exact .inl ⟨i, rfl, h⟩
      | error e =>
        rw [runWord_error hd] at h
        injection h with h
        exact .inr ⟨e, rfl, h.symm⟩
    · simp [step_of_fetch_error hf hb] at h

end Sys2Proof.Machine
end

