-- ==== Sys2Proof/Laws/Exec.lean ====
section
/-! SUPPORT. The handlers that can fault, each as its normal case and its fault case (spec
41_control_flow.md R110, R112; 43_index_memory.md R174-R176; 44_display.md R194). -/

namespace Sys2Proof.Machine

open Sys2Proof

/-! ### Call stack -/

theorem exec_ret_cons {s : State} {a : Addr} {rest : List Addr} (h : s.stack = a :: rest) :
    exec .ret s = .next { s with stack := rest, pc := a } := by
  simp only [exec, execRet, popStack, h, applyPolicy]

theorem exec_ret_nil {s : State} (h : s.stack = []) :
    exec .ret s = .fault (.stackUnderflow s.pc) := by
  simp only [exec, execRet, popStack, h, raise]

theorem exec_call_room {s : State} (nnn : Addr12) (h : s.params.stackLimit ≠ some s.stack.length) :
    exec (.call nnn) s = .next { s with stack := (s.pc + 2) :: s.stack, pc := addrOf nnn } := by
  simp only [exec, execCall, pushStack, if_neg h, applyPolicy]

theorem exec_call_full {s : State} (nnn : Addr12) (h : s.params.stackLimit = some s.stack.length) :
    exec (.call nnn) s = .fault (.stackOverflow s.pc) := by
  simp only [exec, execCall, pushStack, if_pos h, raise]

/-! ### Memory transfers -/

theorem storeAtIndex_inside {s : State} {bs : List Byte} (h : AllInside s.i bs.length) :
    storeAtIndex s bs =
      .next { s with mem := memAfter s.params s.i bs s.mem, pc := s.pc + 2 } := by
  simp only [storeAtIndex, writeBytes_inside h, applyPolicy]

theorem storeAtIndex_outside {s : State} {bs : List Byte} {b : Addr}
    (h : FirstOutside s.i bs.length b) :
    storeAtIndex s bs = .fault (.memoryOutOfRange s.pc b .write) := by
  simp only [storeAtIndex, writeBytes_outside h, raise]

theorem exec_ldBVx_inside {s : State} (x : Reg) (h : AllInside s.i 3) :
    exec (.ldBVx x) s = .next
      { s with mem := memAfter s.params s.i (bcdDigits (getV s x)) s.mem, pc := s.pc + 2 } :=
  storeAtIndex_inside (bs := bcdDigits (getV s x)) h

theorem exec_ldBVx_outside {s : State} (x : Reg) {b : Addr} (h : FirstOutside s.i 3 b) :
    exec (.ldBVx x) s = .fault (.memoryOutOfRange s.pc b .write) :=
  storeAtIndex_outside (bs := bcdDigits (getV s x)) h

theorem exec_ldMemVx_inside {s : State} (x : Reg) (h : AllInside s.i (x.val + 1)) :
    exec (.ldMemVx x) s = .next
      { s with mem := memAfter s.params s.i (regsUpTo s x) s.mem, pc := s.pc + 2 } :=
  storeAtIndex_inside (bs := regsUpTo s x) (by simpa using h)

theorem exec_ldMemVx_outside {s : State} (x : Reg) {b : Addr} (h : FirstOutside s.i (x.val + 1) b) :
    exec (.ldMemVx x) s = .fault (.memoryOutOfRange s.pc b .write) :=
  storeAtIndex_outside (bs := regsUpTo s x) (by simpa using h)

theorem exec_ldVxMem_inside {s : State} (x : Reg) (h : AllInside s.i (x.val + 1)) :
    exec (.ldVxMem x) s =
      .next (applyPolicy (setRegsFrom 0 (bytesFrom s s.i (x.val + 1)) s) .next) := by
  simp only [exec, execLdVxMem, readBytes_inside h]

theorem exec_ldVxMem_outside {s : State} (x : Reg) {b : Addr} (h : FirstOutside s.i (x.val + 1) b) :
    exec (.ldVxMem x) s = .fault (.memoryOutOfRange s.pc b .read) := by
  simp only [exec, execLdVxMem, readBytes_outside h, raise]

/-! ### The sprite draw -/

theorem exec_drw_inside {s : State} (x y : Reg) {n : Nat} (h : AllInside s.i n) :
    exec (.drw x y n) s =
      let drawn := drawSprite (getV s x) (getV s y) (bytesFrom s s.i n) s.fb
      .next (applyPolicy (setV { s with fb := drawn.1 } regVF (collisionFlag drawn.2)) .next) := by
  simp only [exec, execDrw, readBytes_inside h]

theorem exec_drw_outside {s : State} (x y : Reg) {n : Nat} {b : Addr} (h : FirstOutside s.i n b) :
    exec (.drw x y n) s = .fault (.memoryOutOfRange s.pc b .read) := by
  simp only [exec, execDrw, readBytes_outside h, raise]

/-! ### Inversion: the next state of each handler -/

/-- Two registers written in order, and PC advanced. -/
def twoWrites (s : State) (x : Reg) (a : Byte) (y : Reg) (b : Byte) : State :=
  applyPolicy (setV (setV s x a) y b) .next

/-- What a next state of the handler can be, instruction by instruction: one form each, and for the
handlers that can fault the condition under which they do not. -/
def NextForm : Instr → State → State → Prop
  | .cls, s, t => t = applyPolicy (clearScreen s) .next
  | .ret, s, t => ∃ a rest, s.stack = a :: rest ∧ t = { s with stack := rest, pc := a }
  | .jp nnn, s, t => t = { s with pc := addrOf nnn }
  | .call nnn, s, t => s.params.stackLimit ≠ some s.stack.length ∧
      t = { s with stack := (s.pc + 2) :: s.stack, pc := addrOf nnn }
  | .seImm x nn, s, t => t = applyPolicy s (skipIf (decide (getV s x = nn)))
  | .sneImm x nn, s, t => t = applyPolicy s (skipIf (decide (getV s x ≠ nn)))
  | .seReg x y, s, t => t = applyPolicy s (skipIf (decide (getV s x = getV s y)))
  | .ldImm x nn, s, t => t = applyPolicy (setV s x nn) .next
  | .addImm x nn, s, t => t = applyPolicy (setV s x (getV s x + nn)) .next
  | .ldReg x y, s, t => t = applyPolicy (setV s x (getV s y)) .next
  | .orReg x y, s, t => t = applyPolicy (setV s x (getV s x ||| getV s y)) .next
  | .andReg x y, s, t => t = applyPolicy (setV s x (getV s x &&& getV s y)) .next
  | .xorReg x y, s, t => t = applyPolicy (setV s x (getV s x ^^^ getV s y)) .next
  | .addReg x y, s, t => t = twoWrites s x (getV s x + getV s y) regVF (carryFlag (getV s x) (getV s y))
  | .sub x y, s, t => t = twoWrites s x (getV s x - getV s y) regVF (noBorrowFlag (getV s x) (getV s y))
  | .shr x _, s, t => t = twoWrites s regVF (shiftRightFlag (getV s x)) x (getV s x >>> 1)
  | .subn x y, s, t => t = twoWrites s x (getV s y - getV s x) regVF (noBorrowFlag (getV s y) (getV s x))
  | .shl x _, s, t => t = twoWrites s regVF (shiftLeftFlag (getV s x)) x (getV s x <<< 1)
  | .sneReg x y, s, t => t = applyPolicy s (skipIf (decide (getV s x ≠ getV s y)))
  | .ldI nnn, s, t => t = { s with i := addrOf nnn, pc := s.pc + 2 }
  | .jpV0 nnn, s, t => t = { s with pc := addendOf (getV s 0) + addrOf nnn }
  | .rnd x nn, s, t => t = applyPolicy
      (setV { s with draws := s.draws + 1 } x (Config.randomByte s.draws &&& nn)) .next
  | .drw x y n, s, t => AllInside s.i n ∧
      t = applyPolicy (setV
        { s with fb := (drawSprite (getV s x) (getV s y) (bytesFrom s s.i n) s.fb).1 } regVF
        (collisionFlag (drawSprite (getV s x) (getV s y) (bytesFrom s s.i n) s.fb).2)) .next
  | .skp x, s, t => t = applyPolicy s (skipIf (keyIs s (getV s x)))
  | .sknp x, s, t => t = applyPolicy s (skipIf (!keyIs s (getV s x)))
  | .ldVxDt x, s, t => t = applyPolicy (setV s x s.dt) .next
  | .waitKeyEq x, s, t => t = applyPolicy s (if keyIs s (getV s x) then .next else .jump s.pc)
  | .ldDtVx x, s, t => t = { s with dt := getV s x, pc := s.pc + 2 }
  | .ldStVx x, s, t => t = { s with st := getV s x, pc := s.pc + 2 }
  | .addIVx x, s, t => t = { s with i := s.i + addendOf (getV s x), pc := s.pc + 2 }
  | .ldFVx x, s, t => t = { s with i := glyphAddr (getV s x), pc := s.pc + 2 }
  | .ldBVx x, s, t => AllInside s.i 3 ∧
      t = { s with mem := memAfter s.params s.i (bcdDigits (getV s x)) s.mem, pc := s.pc + 2 }
  | .ldMemVx x, s, t => AllInside s.i (x.val + 1) ∧
      t = { s with mem := memAfter s.params s.i (regsUpTo s x) s.mem, pc := s.pc + 2 }
  | .ldVxMem x, s, t => AllInside s.i (x.val + 1) ∧
      t = applyPolicy (setRegsFrom 0 (bytesFrom s s.i (x.val + 1)) s) .next

/-- The inversion of the handlers: a next state has its instruction's form, and every state of that form is
one. Later proofs cite this and do not unfold the handlers. -/
theorem exec_next_iff (i : Instr) (s t : State) : exec i s = .next t ↔ NextForm i s t := by
  cases i
  case ret =>
    cases h : s.stack with
    | nil => simp [NextForm, exec_ret_nil h, h]
    | cons a rest =>
      simp only [NextForm, exec_ret_cons h, h, Host.Outcome.next.injEq, List.cons.injEq]
      exact ⟨fun e => ⟨a, rest, ⟨rfl, rfl⟩, e.symm⟩, fun ⟨_, _, ⟨ha, hr⟩, e⟩ => by rw [e, ha, hr]⟩
  case call nnn =>
    by_cases h : s.params.stackLimit = some s.stack.length
    · simp [NextForm, exec_call_full nnn h, h]
    · simp only [NextForm, exec_call_room nnn h, Host.Outcome.next.injEq]
      exact ⟨fun e => ⟨h, e.symm⟩, fun e => e.2.symm⟩
  case drw x y n =>
    rcases allInside_or_firstOutside s.i n with h | ⟨b, h⟩
    · simp only [NextForm, exec_drw_inside x y h, Host.Outcome.next.injEq]
      exact ⟨fun e => ⟨h, e.symm⟩, fun e => e.2.symm⟩
    · simp [NextForm, exec_drw_outside x y h, not_allInside_of_firstOutside h]
  case ldBVx x =>
    rcases allInside_or_firstOutside s.i 3 with h | ⟨b, h⟩
    · simp only [NextForm, exec_ldBVx_inside x h, Host.Outcome.next.injEq]
      exact ⟨fun e => ⟨h, e.symm⟩, fun e => e.2.symm⟩
    · simp [NextForm, exec_ldBVx_outside x h, not_allInside_of_firstOutside h]
  case ldMemVx x =>
    rcases allInside_or_firstOutside s.i (x.val + 1) with h | ⟨b, h⟩
    · simp only [NextForm, exec_ldMemVx_inside x h, Host.Outcome.next.injEq]
      exact ⟨fun e => ⟨h, e.symm⟩, fun e => e.2.symm⟩
    · simp [NextForm, exec_ldMemVx_outside x h, not_allInside_of_firstOutside h]
  case ldVxMem x =>
    rcases allInside_or_firstOutside s.i (x.val + 1) with h | ⟨b, h⟩
    · simp only [NextForm, exec_ldVxMem_inside x h, Host.Outcome.next.injEq]
      exact ⟨fun e => ⟨h, e.symm⟩, fun e => e.2.symm⟩
    · simp [NextForm, exec_ldVxMem_outside x h, not_allInside_of_firstOutside h]
  all_goals exact ⟨fun e => by injection e with e; exact e.symm, fun e => congrArg _ e.symm⟩

/-- All that a handler can do: a next state of its form, or the fault of its rule; never a refusal. -/
theorem exec_cases (i : Instr) (s : State) :
    (∃ t, exec i s = .next t ∧ NextForm i s t) ∨
    (i = .ret ∧ s.stack = [] ∧ exec i s = .fault (.stackUnderflow s.pc)) ∨
    ((∃ nnn, i = .call nnn) ∧ s.params.stackLimit = some s.stack.length ∧
      exec i s = .fault (.stackOverflow s.pc)) ∨
    (∃ b, FirstOutside s.i (loadedBytes i) b ∧
      exec i s = .fault (.memoryOutOfRange s.pc b .read)) ∨
    (∃ b, FirstOutside s.i (storedBytes i) b ∧
      exec i s = .fault (.memoryOutOfRange s.pc b .write)) := by
  have done : ∀ t, exec i s = .next t → ∃ t, exec i s = .next t ∧ NextForm i s t :=
    fun t h => ⟨t, h, (exec_next_iff i s t).mp h⟩
  cases i
  case ret =>
    cases h : s.stack with
    | nil => exact .inr (.inl ⟨rfl, rfl, exec_ret_nil h⟩)
    | cons a rest => exact .inl (done _ (exec_ret_cons h))
  case call nnn =>
    by_cases h : s.params.stackLimit = some s.stack.length
    · exact .inr (.inr (.inl ⟨⟨nnn, rfl⟩, h, exec_call_full nnn h⟩))
    · exact .inl (done _ (exec_call_room nnn h))
  case drw x y n =>
    rcases allInside_or_firstOutside s.i n with h | ⟨b, h⟩
    · exact .inl (done _ (exec_drw_inside x y h))
    · exact .inr (.inr (.inr (.inl ⟨b, h, exec_drw_outside x y h⟩)))
  case ldVxMem x =>
    rcases allInside_or_firstOutside s.i (x.val + 1) with h | ⟨b, h⟩
    · exact .inl (done _ (exec_ldVxMem_inside x h))
    · exact .inr (.inr (.inr (.inl ⟨b, h, exec_ldVxMem_outside x h⟩)))
  case ldBVx x =>
    rcases allInside_or_firstOutside s.i 3 with h | ⟨b, h⟩
    · exact .inl (done _ (exec_ldBVx_inside x h))
    · exact .inr (.inr (.inr (.inr ⟨b, h, exec_ldBVx_outside x h⟩)))
  case ldMemVx x =>
    rcases allInside_or_firstOutside s.i (x.val + 1) with h | ⟨b, h⟩
    · exact .inl (done _ (exec_ldMemVx_inside x h))
    · exact .inr (.inr (.inr (.inr ⟨b, h, exec_ldMemVx_outside x h⟩)))
  all_goals exact .inl (done _ rfl)

end Sys2Proof.Machine
end

