-- ==== Sys2Proof/Laws/PerInstr.lean ====
section
/-! SUPPORT. A family of lemmas, one for each instruction: its encoded word is of its row of the opcode
table (spec 30_encoding.md R74). -/

namespace Sys2Proof.Laws.MatchesRow

open Sys2Proof

/-- The word of the instruction has the fixed digits of its row. -/
def Statement (i : Instr) : Prop := encode i &&& i.row.mask = i.row.pattern

theorem cls : Statement .cls :=
  rfl

theorem ret : Statement .ret :=
  rfl

theorem jp (nnn : Addr12) : Statement (.jp nnn) :=
  (mask_formNNN _ _).trans rfl

theorem call (nnn : Addr12) : Statement (.call nnn) :=
  (mask_formNNN _ _).trans rfl

theorem seImm (x : Reg) (nn : Byte) : Statement (.seImm x nn) :=
  (mask_formXNN _ _ _).trans rfl

theorem sneImm (x : Reg) (nn : Byte) : Statement (.sneImm x nn) :=
  (mask_formXNN _ _ _).trans rfl

theorem seReg (x y : Reg) : Statement (.seReg x y) :=
  (maskSub_formXYN _ _ _ _).trans rfl

theorem ldImm (x : Reg) (nn : Byte) : Statement (.ldImm x nn) :=
  (mask_formXNN _ _ _).trans rfl

theorem addImm (x : Reg) (nn : Byte) : Statement (.addImm x nn) :=
  (mask_formXNN _ _ _).trans rfl

theorem ldReg (x y : Reg) : Statement (.ldReg x y) :=
  (maskSub_formXYN _ _ _ _).trans rfl

theorem orReg (x y : Reg) : Statement (.orReg x y) :=
  (maskSub_formXYN _ _ _ _).trans rfl

theorem andReg (x y : Reg) : Statement (.andReg x y) :=
  (maskSub_formXYN _ _ _ _).trans rfl

theorem xorReg (x y : Reg) : Statement (.xorReg x y) :=
  (maskSub_formXYN _ _ _ _).trans rfl

theorem addReg (x y : Reg) : Statement (.addReg x y) :=
  (maskSub_formXYN _ _ _ _).trans rfl

theorem sub (x y : Reg) : Statement (.sub x y) :=
  (maskSub_formXYN _ _ _ _).trans rfl

theorem shr (x y : Reg) : Statement (.shr x y) :=
  (maskSub_formXYN _ _ _ _).trans rfl

theorem subn (x y : Reg) : Statement (.subn x y) :=
  (maskSub_formXYN _ _ _ _).trans rfl

theorem shl (x y : Reg) : Statement (.shl x y) :=
  (maskSub_formXYN _ _ _ _).trans rfl

theorem sneReg (x y : Reg) : Statement (.sneReg x y) :=
  (maskSub_formXYN _ _ _ _).trans rfl

theorem ldI (nnn : Addr12) : Statement (.ldI nnn) :=
  (mask_formNNN _ _).trans rfl

theorem jpV0 (nnn : Addr12) : Statement (.jpV0 nnn) :=
  (mask_formNNN _ _).trans rfl

theorem rnd (x : Reg) (nn : Byte) : Statement (.rnd x nn) :=
  (mask_formXNN _ _ _).trans rfl

theorem drw (x y : Reg) (n : Nat) : Statement (.drw x y n) :=
  (mask_formXYN _ _ _ _).trans rfl

theorem skp (x : Reg) : Statement (.skp x) :=
  (maskSub_formXNN _ _ _).trans rfl

theorem sknp (x : Reg) : Statement (.sknp x) :=
  (maskSub_formXNN _ _ _).trans rfl

theorem ldVxDt (x : Reg) : Statement (.ldVxDt x) :=
  (maskSub_formXNN _ _ _).trans rfl

theorem waitKeyEq (x : Reg) : Statement (.waitKeyEq x) :=
  (maskSub_formXNN _ _ _).trans rfl

theorem ldDtVx (x : Reg) : Statement (.ldDtVx x) :=
  (maskSub_formXNN _ _ _).trans rfl

theorem ldStVx (x : Reg) : Statement (.ldStVx x) :=
  (maskSub_formXNN _ _ _).trans rfl

theorem addIVx (x : Reg) : Statement (.addIVx x) :=
  (maskSub_formXNN _ _ _).trans rfl

theorem ldFVx (x : Reg) : Statement (.ldFVx x) :=
  (maskSub_formXNN _ _ _).trans rfl

theorem ldBVx (x : Reg) : Statement (.ldBVx x) :=
  (maskSub_formXNN _ _ _).trans rfl

theorem ldMemVx (x : Reg) : Statement (.ldMemVx x) :=
  (maskSub_formXNN _ _ _).trans rfl

theorem ldVxMem (x : Reg) : Statement (.ldVxMem x) :=
  (maskSub_formXNN _ _ _).trans rfl

end Sys2Proof.Laws.MatchesRow
end

