-- ==== Sys2Proof/Tests/Slice0.lean ====
section
/-! SUPPORT. Tests. Expected results come from spec/95_test_vectors.md (the row is named in each docstring)
or are written out from the encoding table of 30_encoding.md R74. The last part holds, for every statement
with hypotheses, a witness that meets them together. -/

namespace Sys2Proof.Tests

open Sys2Proof Sys2Proof.Machine

/-! ### Helpers -/

/-- The reset state with a word at PC. -/
def boot (w : Nat) : State := State.reset.withFetchWord 16 w

/-- With a byte in memory. -/
def poke (a : Nat) (b : Byte) (s : State) : State :=
  { s with mem := memStore s.params s.mem a b }

/-- With a register set. -/
def reg (x : Reg) (b : Byte) (s : State) : State := setV s x b

/-- One tick has a next state, and it passes the check. -/
def ends (s : State) (check : State → Bool) : Bool :=
  match step s with
  | .next t => check t
  | .fault _ => false
  | .refused _ => false

/-- One tick ends in the fault. -/
def stops (s : State) (r : Fault) : Bool :=
  match step s with
  | .next _ => false
  | .fault q => decide (q = r)
  | .refused _ => false

/-- The outcome is a next state. -/
def isNext (o : Host.Outcome State Fault Refusal) : Bool :=
  match o with
  | .next _ => true
  | .fault _ => false
  | .refused _ => false

/-- The next state of an outcome, else the given one. -/
def nextOf (o : Host.Outcome State Fault Refusal) (s : State) : State :=
  match o with
  | .next t => t
  | .fault _ => s
  | .refused _ => s

theorem eq_next_of_isNext {o : Host.Outcome State Fault Refusal} (s : State) (h : isNext o = true) :
    o = .next (nextOf o s) := by
  cases o with
  | next t => rfl
  | fault r => exact absurd h (by simp [isNext])
  | refused r => exact absurd h (by simp [isNext])

/-- A state that fetches another instruction does not fetch this one. -/
theorem not_fetches {s : State} {w : Word} {i j : Instr} (hw : fetch s = .ok w)
    (hj : decodeWord w = .ok j) (hne : j ≠ i) : ¬ Fetches s i := by
  rintro ⟨w', hw', hi⟩
  rw [hw] at hw'
  cases hw'
  rw [hj] at hi
  cases hi
  exact hne rfl

/-! ### Well-formedness -/

/-- The row count has four bits: 15 is well formed, 16 is not (30_encoding.md R73). -/
theorem test_wellFormed_drw :
    (Instr.drw 0 0 16).wellFormed = false ∧ (Instr.drw 0 0 15).wellFormed = true := by decide

/-- Register numbers, bytes and addresses have their widths in their types. -/
theorem test_wellFormed_others :
    (Instr.jp 0xFFF).wellFormed = true ∧ (Instr.ldVxMem 0xF).wellFormed = true := by decide

/-! ### Decoding: words written out from the formats and rows of R72 and R74 -/

theorem test_decode_control :
    decodeWord 0b0000000011101110 = .ok .ret ∧
    decodeWord 0b0001101010111100 = .ok (.jp 0xABC) ∧
    decodeWord 0b0010000100100011 = .ok (.call 0x123) ∧
    decodeWord 0b0011010101000010 = .ok (.seImm 5 0x42) ∧
    decodeWord 0b0100111101000001 = .ok (.sneImm 15 0x41) ∧
    decodeWord 0b0101000100100000 = .ok (.seReg 1 2) ∧
    decodeWord 0b1001111000110000 = .ok (.sneReg 14 3) ∧
    decodeWord 0b1011001100000001 = .ok (.jpV0 0x301) := by decide

theorem test_decode_load_random :
    decodeWord 0b0110101001111111 = .ok (.ldImm 10 0x7F) ∧
    decodeWord 0b0111001100000010 = .ok (.addImm 3 0x02) ∧
    decodeWord 0b1100001100001111 = .ok (.rnd 3 0x0F) := by decide

theorem test_decode_arithmetic :
    decodeWord 0b1000000100100000 = .ok (.ldReg 1 2) ∧
    decodeWord 0b1000001000110001 = .ok (.orReg 2 3) ∧
    decodeWord 0b1000001101000010 = .ok (.andReg 3 4) ∧
    decodeWord 0b1000010001010011 = .ok (.xorReg 4 5) ∧
    decodeWord 0b1000010101100100 = .ok (.addReg 5 6) ∧
    decodeWord 0b1000011001110101 = .ok (.sub 6 7) ∧
    decodeWord 0b1000011110000110 = .ok (.shr 7 8) ∧
    decodeWord 0b1000100010010111 = .ok (.subn 8 9) ∧
    decodeWord 0b1000100110101110 = .ok (.shl 9 10) := by decide

theorem test_decode_index_memory :
    decodeWord 0b1010000100100011 = .ok (.ldI 0x123) ∧
    decodeWord 0b1111001000011110 = .ok (.addIVx 2) ∧
    decodeWord 0b1111000100101001 = .ok (.ldFVx 1) ∧
    decodeWord 0b1111110000110011 = .ok (.ldBVx 12) ∧
    decodeWord 0b1111001001010101 = .ok (.ldMemVx 2) ∧
    decodeWord 0b1111111101100101 = .ok (.ldVxMem 15) := by decide

theorem test_decode_display :
    decodeWord 0b0000000011100000 = .ok .cls ∧
    decodeWord 0b1101000011110001 = .ok (.drw 0 15 1) := by decide

theorem test_decode_keypad_timers :
    decodeWord 0b1110000010011110 = .ok (.skp 0) ∧
    decodeWord 0b1110011010100001 = .ok (.sknp 6) ∧
    decodeWord 0b1111001100000111 = .ok (.ldVxDt 3) ∧
    decodeWord 0b1111001000001010 = .ok (.waitKeyEq 2) ∧
    decodeWord 0b1111010100010101 = .ok (.ldDtVx 5) ∧
    decodeWord 0b1111100000011000 = .ok (.ldStVx 8) := by decide

/-- Y3: words that no row matches. -/
theorem test_decode_unrecognised :
    decodeWord 0x8008 = .error (.unrecognised 0x8008) ∧
    decodeWord 0x800F = .error (.unrecognised 0x800F) ∧
    decodeWord 0xE000 = .error (.unrecognised 0xE000) ∧
    decodeWord 0xF0FF = .error (.unrecognised 0xF0FF) ∧
    decodeWord 0xFFFF = .error (.unrecognised 0xFFFF) ∧
    decodeWord 0x0000 = .error (.unrecognised 0x0000) ∧
    decode [0x60] = .error .truncated := by decide

/-- The host's entry reads bit 0 as the least significant bit of the word. -/
theorem test_decodeTableWord :
    decodeTableWord 16 0x00EE = some .ret ∧ decodeTableWord 16 0xD125 = some (.drw 1 2 5) ∧
    decodeTableWord 16 0x5121 = none := by decide

/-- The host's placing of a word: the next step runs it, wherever PC was and whatever fault was recorded. -/
theorem test_withFetchWord :
    ends (({ State.reset with pc := 0x0FFF, fault := some (.stackUnderflow 0) }).withFetchWord 16 0x6A7F)
      (fun t => getV t 10 == 0x7F) = true ∧
    ends (({ State.reset with pc := 0x0FFE }).withFetchWord 16 0x6A7F)
      (fun t => getV t 10 == 0x7F && t.pc == 0x1000) = true := by decide

/-! ### The tick (95_test_vectors.md 2.1) -/

/-- Y1. -/
theorem test_unrecognised_tick :
    ends { boot 0x0123 with dt := 3 } (fun t => t.pc == 0x202 && t.dt == 2 && !t.snd) = true := by
  decide

/-- Y2: 5121 is not 5xy0. -/
theorem test_no_skip_5121 :
    ends (boot 0x5121 |> reg 1 7 |> reg 2 7) (fun t => t.pc == 0x202) = true := by decide

/-- Y4: an odd PC. -/
theorem test_odd_pc :
    ends ({ boot 0 with pc := 0x201 } |> poke 0x201 0x60 |> poke 0x202 0x2A)
      (fun t => t.pc == 0x203 && getV t 0 == 0x2A) = true := by decide

/-- Y5, Y6. -/
theorem test_fetch_faults :
    stops { boot 0 with pc := 0x0FFF } (.memoryOutOfRange 0x0FFF 0x1000 .fetch) = true ∧
    stops { boot 0 with pc := 0x1000 } (.memoryOutOfRange 0x1000 0x1000 .fetch) = true := by decide

/-- Y7. -/
theorem test_timers_tick :
    ends { boot 0x6000 with dt := 1, st := 1 }
      (fun t => t.pc == 0x202 && t.dt == 0 && t.st == 0 && t.snd) = true := by decide

/-- Y8. -/
theorem test_sound_off :
    ends { boot 0x6000 with snd := true } (fun t => !t.snd) = true := by decide

/-- Y9. -/
theorem test_no_tick_after_fault :
    stops { boot 0x6000 with fault := some (.stackUnderflow 0x200) } (.stackUnderflow 0x200) = true := by
  decide

/-! ### Control flow (2.2) -/

/-- F5. -/
theorem test_ret :
    ends { boot 0x00EE with stack := [0x345, 0x202] }
      (fun t => t.pc == 0x345 && t.stack == [0x202]) = true := by decide

/-- F6. -/
theorem test_ret_empty : stops (boot 0x00EE) (.stackUnderflow 0x200) = true := by decide

/-- F1, F2. -/
theorem test_jp :
    ends (boot 0x1ABC) (fun t => t.pc == 0xABC) = true ∧
    ends (boot 0x1203) (fun t => t.pc == 0x203) = true := by decide

/-- F7. -/
theorem test_call :
    ends { boot 0x2400 with stack := [0x208] }
      (fun t => t.pc == 0x400 && t.stack == [0x202, 0x208]) = true := by decide

/-- F8. -/
theorem test_call_overflow :
    stops { boot 0x2400 with stack := [0x302, 0x202],
                             params := { Config.defaultParams with stackLimit := some 2 } }
      (.stackOverflow 0x200) = true := by decide

/-- F10, F11. -/
theorem test_seImm :
    ends (boot 0x3042 |> reg 0 0x42) (fun t => t.pc == 0x204) = true ∧
    ends (boot 0x3041 |> reg 0 0x42) (fun t => t.pc == 0x202) = true := by decide

/-- F12, F13. -/
theorem test_sneImm :
    ends (boot 0x4042 |> reg 0 0x42) (fun t => t.pc == 0x202) = true ∧
    ends (boot 0x4041 |> reg 0 0x42) (fun t => t.pc == 0x204) = true := by decide

/-- F15, F16. -/
theorem test_seReg :
    ends (boot 0x5120 |> reg 1 7 |> reg 2 7) (fun t => t.pc == 0x204) = true ∧
    ends (boot 0x5120 |> reg 1 7 |> reg 2 8) (fun t => t.pc == 0x202) = true := by decide

/-- F18, F19. -/
theorem test_sneReg :
    ends (boot 0x9120 |> reg 1 7 |> reg 2 8) (fun t => t.pc == 0x204) = true ∧
    ends (boot 0x9330 |> reg 3 9) (fun t => t.pc == 0x202) = true := by decide

/-- F22, F23: no reduction to 12 bits, and V5 is not used. -/
theorem test_jpV0 :
    ends (boot 0xBFFF |> reg 0 0xFF) (fun t => t.pc == 0x10FE) = true ∧
    ends (boot 0xB500 |> reg 5 0x40) (fun t => t.pc == 0x500) = true := by decide

/-! ### Loads, arithmetic, logic, shifts, random (2.3) -/

/-- A1. -/
theorem test_ldImm : ends (boot 0x6A7F) (fun t => getV t 10 == 0x7F && t.pc == 0x202) = true := by
  decide

/-- A2, A3. -/
theorem test_addImm :
    ends (boot 0x7302 |> reg 3 0xFF |> reg 15 0x55)
      (fun t => getV t 3 == 0x01 && getV t 15 == 0x55) = true ∧
    ends (boot 0x7F01 |> reg 15 0xFF) (fun t => getV t 15 == 0x00) = true := by decide

/-- A4. -/
theorem test_ldReg : ends (boot 0x8010 |> reg 1 0x12) (fun t => getV t 0 == 0x12) = true := by decide

/-- A5. -/
theorem test_or :
    ends (boot 0x8011 |> reg 0 0xF0 |> reg 1 0x0F |> reg 15 0x01)
      (fun t => getV t 0 == 0xFF && getV t 15 == 0x01) = true := by decide

/-- A6. -/
theorem test_and :
    ends (boot 0x8012 |> reg 0 0xF0 |> reg 1 0x3C) (fun t => getV t 0 == 0x30) = true := by decide

/-- A7. -/
theorem test_xor :
    ends (boot 0x8013 |> reg 0 0xF0 |> reg 1 0x3C) (fun t => getV t 0 == 0xCC) = true := by decide

/-- A9, A10. -/
theorem test_addReg :
    ends (boot 0x8014 |> reg 0 250 |> reg 1 10) (fun t => getV t 0 == 4 && getV t 15 == 1) = true ∧
    ends (boot 0x8014 |> reg 0 0x7F |> reg 1 1)
      (fun t => getV t 0 == 0x80 && getV t 15 == 0) = true := by decide

/-- A14: with x = F the carry stays. -/
theorem test_addReg_flag_last :
    ends (boot 0x8F14 |> reg 15 1 |> reg 1 1) (fun t => getV t 15 == 0) = true := by decide

/-- A15, A16, A17. -/
theorem test_sub :
    ends (boot 0x8015 |> reg 0 5 |> reg 1 3) (fun t => getV t 0 == 2 && getV t 15 == 1) = true ∧
    ends (boot 0x8015 |> reg 0 3 |> reg 1 5) (fun t => getV t 0 == 0xFE && getV t 15 == 0) = true ∧
    ends (boot 0x8015 |> reg 0 7 |> reg 1 7) (fun t => getV t 0 == 0 && getV t 15 == 1) = true := by
  decide

/-- A19: the subtrahend is VF as it was. -/
theorem test_sub_from_flag :
    ends (boot 0x80F5 |> reg 0 5 |> reg 15 7) (fun t => getV t 0 == 0xFE && getV t 15 == 0) = true := by
  decide

/-- A22, A23. -/
theorem test_shr :
    ends (boot 0x8016 |> reg 0 2 |> reg 1 0xFF) (fun t => getV t 0 == 1 && getV t 15 == 0) = true ∧
    ends (boot 0x8006 |> reg 0 1) (fun t => getV t 0 == 0 && getV t 15 == 1) = true := by decide

/-- A24: with x = F the result stays. -/
theorem test_shr_result_last :
    ends (boot 0x8F06 |> reg 15 5) (fun t => getV t 15 == 2) = true := by decide

/-- A25, A26. -/
theorem test_subn :
    ends (boot 0x8017 |> reg 0 3 |> reg 1 5) (fun t => getV t 0 == 2 && getV t 15 == 1) = true ∧
    ends (boot 0x8017 |> reg 0 5 |> reg 1 3) (fun t => getV t 0 == 0xFE && getV t 15 == 0) = true := by
  decide

/-- A28, A29: the flag is 0x80, not 1. -/
theorem test_shl :
    ends (boot 0x800E |> reg 0 0x81) (fun t => getV t 0 == 2 && getV t 15 == 0x80) = true ∧
    ends (boot 0x800E |> reg 0 0x40) (fun t => getV t 0 == 0x80 && getV t 15 == 0) = true := by decide

/-- A32: with x = F the result stays. -/
theorem test_shl_result_last :
    ends (boot 0x8F0E |> reg 15 0xC1) (fun t => getV t 15 == 0x82) = true := by decide

/-- One draw is used up; its value is free, so the test looks at the counter alone. -/
theorem test_rnd :
    ends (boot 0xC3FF) (fun t => t.draws == 1 && t.pc == 0x202) = true := by decide

/-! ### Index and memory (2.4) -/

/-- M1. -/
theorem test_ldI : ends (boot 0xA123) (fun t => t.i == 0x123) = true := by decide

/-- M3, M4. -/
theorem test_addIVx :
    ends ({ boot 0xF01E with i := 0x0FFF } |> reg 0 1)
      (fun t => t.i == 0x1000 && getV t 15 == 0) = true ∧
    ends ({ boot 0xF01E with i := 0xFFFF } |> reg 0 2) (fun t => t.i == 0x0001) = true := by decide

/-- M5, M7. -/
theorem test_ldFVx :
    ends (boot 0xF029 |> reg 0 0x0A) (fun t => t.i == 0x32) = true ∧
    ends (boot 0xF029 |> reg 0 0xFF) (fun t => t.i == 0x4FB) = true := by decide

/-- M8. -/
theorem test_ldBVx :
    ends ({ boot 0xF033 with i := 0x300 } |> reg 0 234)
      (fun t => byteAt t 0x300 == 2 && byteAt t 0x301 == 3 && byteAt t 0x302 == 4) = true := by decide

/-- M12. -/
theorem test_ldBVx_outside :
    stops ({ boot 0xF033 with i := 0x0FFE } |> reg 0 1) (.memoryOutOfRange 0x200 0x1000 .write) = true := by
  decide

/-- M13. -/
theorem test_ldMemVx :
    ends ({ boot 0xF255 with i := 0x300 } |> reg 0 1 |> reg 1 2 |> reg 2 3 |> poke 0x303 0xEE)
      (fun t => byteAt t 0x300 == 1 && byteAt t 0x301 == 2 && byteAt t 0x302 == 3 &&
        byteAt t 0x303 == 0xEE && t.i == 0x300) = true := by decide

/-- M20: the font region is written. -/
theorem test_ldMemVx_font :
    ends (boot 0xF055 |> reg 0 0xAB) (fun t => byteAt t 0 == 0xAB && byteAt t 1 == 0x90) = true := by
  decide

/-- M17. -/
theorem test_ldVxMem :
    ends ({ boot 0xF265 with i := 0x300 } |> reg 3 0x77 |> poke 0x300 2 |> poke 0x301 3 |> poke 0x302 4)
      (fun t => getV t 0 == 2 && getV t 1 == 3 && getV t 2 == 4 && getV t 3 == 0x77 &&
        t.i == 0x300) = true := by decide

/-- M19. -/
theorem test_ldVxMem_outside :
    stops { boot 0xF065 with i := 0x1000 } (.memoryOutOfRange 0x200 0x1000 .read) = true := by decide

/-! ### Display (2.5) -/

/-- G1. -/
theorem test_cls :
    ends ({ boot 0x00E0 with fb := setPixel FrameBuffer.dark 5 5 true } |> reg 15 0x33)
      (fun t => t.fb == FrameBuffer.dark && getV t 15 == 0x33) = true := by decide

/-- G4 and G2 together: a sprite over the right and the lower edge. -/
theorem test_drw_wraps :
    ends ({ boot 0xD012 with i := 0x300 } |> reg 0 60 |> reg 1 31 |> poke 0x300 0x88 |> poke 0x301 0x80)
      (fun t => pixel t.fb 60 31 && pixel t.fb 0 31 && pixel t.fb 60 0 && !pixel t.fb 0 0 &&
        getV t 15 == 0) = true := by decide

/-- G6: one pixel is erased, one lit. -/
theorem test_drw_collides :
    ends ({ boot 0xD011 with i := 0x300, fb := setPixel FrameBuffer.dark 0 0 true } |> poke 0x300 0xC0)
      (fun t => !pixel t.fb 0 0 && pixel t.fb 1 0 && getV t 15 == 1) = true := by decide

/-! ### Keypad and timers (2.6) -/

/-- K1, K3: the whole byte is compared. -/
theorem test_skp :
    ends ({ boot 0xE09E with key := some 5 } |> reg 0 5) (fun t => t.pc == 0x204) = true ∧
    ends ({ boot 0xE09E with key := some 5 } |> reg 0 0x15) (fun t => t.pc == 0x202) = true := by decide

/-- K4, K5. -/
theorem test_sknp :
    ends (boot 0xE0A1 |> reg 0 5) (fun t => t.pc == 0x204) = true ∧
    ends ({ boot 0xE0A1 with key := some 5 } |> reg 0 5) (fun t => t.pc == 0x202) = true := by decide

/-- K7. -/
theorem test_ldVxDt :
    ends { boot 0xF307 with dt := 3 } (fun t => getV t 3 == 2 && t.dt == 2) = true := by decide

/-- K12: the timers run while waiting. -/
theorem test_waitKeyEq_waits :
    ends ({ boot 0xF20A with key := some 3, dt := 2 } |> reg 2 7)
      (fun t => t.pc == 0x200 && t.dt == 1) = true := by decide

/-- K11: nothing is stored. -/
theorem test_waitKeyEq_goes_on :
    ends ({ boot 0xF20A with key := some 7 } |> reg 2 7)
      (fun t => t.pc == 0x202 && getV t 2 == 7) = true := by decide

/-- K14. -/
theorem test_ldDtVx :
    ends ({ boot 0xF015 with dt := 9 } |> reg 0 5) (fun t => t.dt == 5) = true := by decide

/-- K15. -/
theorem test_ldStVx :
    ends (boot 0xF018 |> reg 0 2) (fun t => t.st == 2 && !t.snd) = true := by decide

/-! ### Witnesses: states and operands that meet the hypotheses of the statements -/

/-- LoadAndSetKeyWriteTheirTargetsAlone: a ROM that just fits, one that does not, and the first code that
is none. -/
theorem witness_load :
    (List.replicate 3584 (0 : Byte)).length ≤ 3584 ∧ 3584 < (List.replicate 3585 (0 : Byte)).length ∧
    16 ≤ 16 := by
  simp only [List.length_replicate]
  omega

/-- StepRunsTheDecodedInstruction, at the last PC whose two bytes are inside the memory. -/
theorem witness_step_runs :
    let s := { boot 0 with pc := 0x0FFE } |> poke 0x0FFE 0x12 |> poke 0x0FFF 0x34
    s.fault = none ∧ s.pc.toNat + 1 < 4096 ∧
    decode [byteAt s s.pc.toNat, byteAt s (s.pc.toNat + 1)] = .ok (.jp 0x234, []) := by decide

/-- FetchReadsTheBigEndianWord. -/
theorem witness_fetch_reads : (boot 0x6A7F).pc.toNat + 1 < 4096 := by decide

/-- FetchOutsideTheMemoryFaults: the first PC of each clause. -/
theorem witness_fetch_outside :
    ({ State.reset with pc := 0x1000 }).fault = none ∧
    4096 ≤ ({ State.reset with pc := 0x1000 }).pc.toNat ∧
    ({ State.reset with pc := 0x0FFF }).fault = none ∧
    ({ State.reset with pc := 0x0FFF }).pc = 0x0FFF := by decide

/-- What Fetches asks of a booted state. -/
theorem fetches_boot {s : State} {w : Word} {i : Instr} (hw : fetch s = .ok w)
    (hd : decodeWord w = .ok i) : Fetches s i := ⟨w, hw, hd⟩

/-- DelayTimerCountsDownOncePerTick: each clause. -/
theorem witness_delay_timer :
    ((∃ t, step (boot 0x6000) = .next t) ∧ ∀ x, ¬ Fetches (boot 0x6000) (.ldDtVx x)) ∧
    ((∃ t, step (boot 0xFF15) = .next t) ∧ Fetches (boot 0xFF15) (.ldDtVx 15)) ∧
    ((∃ t, step (boot 0xF007) = .next t) ∧ Fetches (boot 0xF007) (.ldVxDt 0)) :=
  ⟨⟨⟨_, eq_next_of_isNext State.reset (by decide)⟩,
      fun x => not_fetches (w := 0x6000) (j := .ldImm 0 0) (by decide) (by decide) (by simp)⟩,
    ⟨⟨_, eq_next_of_isNext State.reset (by decide)⟩,
      fetches_boot (w := 0xFF15) (by decide) (by decide)⟩,
    ⟨_, eq_next_of_isNext State.reset (by decide)⟩,
      fetches_boot (w := 0xF007) (by decide) (by decide)⟩

/-- A self-jump with the sound timer at 1, and its next states. -/
def soundRun : Nat → State
  | 0 => { boot 0x1200 with st := 1 }
  | k + 1 => nextOf (step (soundRun k)) (soundRun k)

/-- SoundFlagIsOnForExactlyTheTicksCounted: the Fx18 clause, and a run of two ticks without one. -/
theorem witness_sound :
    ((∃ t, step (boot 0xF018) = .next t) ∧ Fetches (boot 0xF018) (.ldStVx 0)) ∧
    ∀ k < 2, step (soundRun k) = .next (soundRun (k + 1)) ∧ ∀ x, ¬ Fetches (soundRun k) (.ldStVx x) := by
  refine ⟨⟨⟨_, eq_next_of_isNext State.reset (by decide)⟩,
    fetches_boot (w := 0xF018) (by decide) (by decide)⟩, fun k hk => ?_⟩
  have h : ∀ k < 2, isNext (step (soundRun k)) = true ∧ fetch (soundRun k) = .ok 0x1200 := by decide
  exact ⟨eq_next_of_isNext _ (h k hk).1,
    fun x => not_fetches (w := 0x1200) (j := .jp 0x200) (h k hk).2 (by decide) (by simp)⟩

/-- UnrecognisedWordIsANoOpTick. -/
theorem witness_unrecognised :
    (boot 0x5121).fault = none ∧ fetch (boot 0x5121) = .ok 0x5121 ∧
    decodeWord 0x5121 = .error (.unrecognised 0x5121) := by decide

/-- ProgramCounterMovesByOnePolicy: an instruction with a target, and one without. -/
theorem witness_policy :
    (∃ t, exec .ret { boot 0x00EE with stack := [0x202] } = .next t) ∧
    jumpTarget .ret { boot 0x00EE with stack := [0x202] } = some 0x202 ∧
    (∃ t, exec (.skp 0) (boot 0xE09E) = .next t) ∧ jumpTarget (.skp 0) (boot 0xE09E) = none :=
  ⟨⟨_, eq_next_of_isNext State.reset (by decide)⟩, by decide,
    ⟨_, eq_next_of_isNext State.reset (by decide)⟩, by decide⟩

/-- EveryInstructionCompletesExactlyThen: its right-hand side, for a store up to the last byte. -/
theorem witness_completes :
    AllInside 0x0FF0 (loadedBytes (.ldMemVx 15)) ∧ AllInside 0x0FF0 (storedBytes (.ldMemVx 15)) ∧
    ¬ AllInside 0x0FF1 (storedBytes (.ldMemVx 15)) := by
  unfold AllInside
  decide

/-- StackUnderflowIsRaisedBy00EEAlone. -/
theorem witness_underflow :
    (boot 0x00EE).fault = none ∧ fetch (boot 0x00EE) = .ok 0x00EE ∧ (boot 0x00EE).stack = [] := by
  decide

/-- MemoryOutOfRangeIsTheFirstAddressOutside: no fault is recorded, and each kind of access goes outside
in some state, at its first and at a later address. -/
theorem witness_memory_out_of_range :
    State.reset.fault = none ∧
    FirstOutside 0x1000 2 0x1000 ∧ FirstOutside 0x0FFF 2 0x1000 ∧
    (Fetches (boot 0xF065) (.ldVxMem 0) ∧ FirstOutside 0x1000 (loadedBytes (.ldVxMem 0)) 0x1000) ∧
    (Fetches (boot 0xF033) (.ldBVx 0) ∧ FirstOutside 0x0FFE (storedBytes (.ldBVx 0)) 0x1000) := by
  refine ⟨by decide, ⟨0, by decide, by decide, by decide, by unfold AllInside; decide⟩,
    ⟨1, by decide, by decide, by decide, by unfold AllInside; decide⟩,
    ⟨fetches_boot (w := 0xF065) (by decide) (by decide),
      0, by decide, by decide, by decide, by unfold AllInside; decide⟩,
    fetches_boot (w := 0xF033) (by decide) (by decide),
      2, by decide, by decide, by decide, by unfold AllInside; decide⟩

/-- A machine with STACK_LIMIT 2 and two entries, at a 2nnn. -/
def full : State :=
  { boot 0x2400 with stack := [0x302, 0x202],
                     params := { Config.defaultParams with stackLimit := some 2 } }

/-- StackOverflowIsRaisedAtTheLimitAlone and CallPushesTheReturnAddress: the stack full, and one entry
below; a 00EE then finds the pushed stack. -/
theorem witness_overflow :
    full.fault = none ∧ Fetches full (.call 0x400) ∧ full.params.stackLimit = some full.stack.length ∧
    ({ full with stack := [0x202] }).params.stackLimit ≠
      some ({ full with stack := [0x202] }).stack.length ∧
    ({ boot 0x00EE with stack := [0x202, 0x202] }).stack = [0x200 + 2, 0x202] :=
  ⟨by decide, fetches_boot (w := 0x2400) (by decide) (by decide), by decide, by decide, by decide⟩

/-- FaultIsRecordedAndStopsTheEngine: a recorded fault, a tick that faults, a tick that does not. -/
theorem witness_fault_recorded :
    ({ State.reset with fault := some (.stackUnderflow 0x200) }).fault =
      some (.stackUnderflow 0x200) ∧
    ((boot 0x00EE).fault = none ∧ step (boot 0x00EE) = .fault (.stackUnderflow 0x200)) ∧
    ∃ t, step (boot 0x6000) = .next t :=
  ⟨by decide, ⟨by decide, rfl⟩, _, eq_next_of_isNext State.reset (by decide)⟩

/-- DecoderAgreesWithTheOpcodeTable: a word of a row, and one of none. -/
theorem witness_decoder :
    decodeWord 0x8AB4 = .ok (.addReg 0xA 0xB) ∧ (Instr.addReg 0xA 0xB).row ∈ opcodeTable ∧
    decodeWord 0x8AB8 = .error (.unrecognised 0x8AB8) := by decide

/-- DecodeOfEncodeIsTheInstruction and EncodeOfDecodeIsTheWord, every field at its greatest value. -/
theorem witness_encoding :
    (Instr.drw 15 15 15).wellFormed = true ∧ decodeWord 0xDFFF = .ok (.drw 15 15 15) := by decide

/-- The frames of registers, memory, other state, KEY and FAULT: an instruction that completes, a register
that it does not name, an address that it does not store to. -/
theorem witness_frames :
    (∃ t, exec (.ldBVx 3) { boot 0xF333 with i := 0x0FFD } = .next t) ∧ (0 : Reg) ∉ writtenRegs (.ldBVx 3) ∧
    (∀ k < storedBytes (.ldBVx 3), 0x0FFC ≠ ((0x0FFD : Addr) + BitVec.ofNat 16 k).toNat) ∧
    (∃ t, exec (.rnd 15 0) (boot 0xCF00) = .next t) :=
  ⟨⟨_, eq_next_of_isNext State.reset (by decide)⟩, by decide, by decide,
    ⟨_, eq_next_of_isNext State.reset (by decide)⟩⟩

/-- ReturnPopsTheMostRecentEntry: each clause. -/
theorem witness_return :
    ({ State.reset with stack := [0xFFFF, 0x202] }).stack = 0xFFFF :: [0x202] ∧
    State.reset.stack = [] := by decide

/-- The encoding clauses: a word of each mask and pattern they name. -/
theorem witness_masks :
    (0x1FFF : Word) &&& 0xF000 = 0x1000 ∧ (0xBFFF : Word) &&& 0xF000 = 0xB000 ∧
    (0x2FFF : Word) &&& 0xF000 = 0x2000 ∧ (0x3FFF : Word) &&& 0xF000 = 0x3000 ∧
    (0x4FFF : Word) &&& 0xF000 = 0x4000 ∧ (0x5FF0 : Word) &&& 0xF00F = 0x5000 ∧
    (0x9FF0 : Word) &&& 0xF00F = 0x9000 ∧ (0x6FFF : Word) &&& 0xF000 = 0x6000 ∧
    (0x8FF0 : Word) &&& 0xF00F = 0x8000 ∧ (0x7FFF : Word) &&& 0xF000 = 0x7000 ∧
    (0xAFFF : Word) &&& 0xF000 = 0xA000 ∧ (0xFF29 : Word) &&& 0xF0FF = 0xF029 ∧
    (0xEF9E : Word) &&& 0xF0FF = 0xE09E ∧ (0xEFA1 : Word) &&& 0xF0FF = 0xE0A1 ∧
    (0xFF07 : Word) &&& 0xF0FF = 0xF007 ∧ (0xFF15 : Word) &&& 0xF0FF = 0xF015 ∧
    (0xFF18 : Word) &&& 0xF0FF = 0xF018 ∧ (0xFF0A : Word) &&& 0xF0FF = 0xF00A := by decide

/-- SelfJumpChangesTheTimersAlone. -/
theorem witness_self_jump :
    (boot 0x1200).fault = none ∧ Fetches (boot 0x1200) (.jp 0x200) ∧
    (boot 0x1200).pc.toNat = (0x200 : Addr12).toNat :=
  ⟨by decide, fetches_boot (w := 0x1200) (by decide) (by decide), by decide⟩

/-- AddRegisters, Subtractions, Shifts: a destination that is not VF, and a register that is neither. -/
theorem witness_not_flag :
    (14 : Reg) ≠ regVF ∧ (0 : Reg) ≠ 14 ∧ (0 : Reg) ≠ regVF := by decide

/-- DecimalStore, StoreRegisters, LoadRegisters, DrawInstruction: runs that end at the last byte; an empty
run is inside wherever I points. -/
theorem witness_inside :
    AllInside 0x0FFD 3 ∧ AllInside 0x0FF0 ((15 : Reg).val + 1) ∧ AllInside 0x0FFF ((0 : Reg).val + 1) ∧
    AllInside 0x0FF1 15 ∧ AllInside 0xFFFF 0 := by
  unfold AllInside
  decide

/-- LoadAfterStoreGivesTheRegistersBack. -/
theorem witness_load_after_store :
    ∃ t, exec (.ldMemVx 15) { boot 0xFF55 with i := 0x0FF0 } = .next t :=
  ⟨_, eq_next_of_isNext State.reset (by decide)⟩

/-- ReadAfterWriteGivesTheByte: the last address inside, and the first outside. -/
theorem witness_read_after_write :
    (0x0FFF : Addr).toNat < 4096 ∧ (0x0FFE : Addr) ≠ 0x0FFF ∧ 4096 ≤ (0x1000 : Addr).toNat := by decide

/-- CanonicalMemoriesThatReadAlikeAreEqual: a memory that is not empty. -/
theorem witness_canonical :
    Memory.wf Config.defaultParams [(0x000, 0xAB), (0xFFF, 0x01)] = true ∧
    Memory.wf Config.defaultParams [(0x000, 0xF0)] = false := by decide

/-- SpriteDrawIsXorWithExactCollision and DrawingTwiceRestoresTheScreen. -/
theorem witness_sprite :
    (List.replicate 15 (0xFF : Byte)).length ≤ 15 ∧ (List.replicate 32 (0xFF : Byte)).length ≤ 32 := by
  decide

/-- KeySkips and KeyWait: the awaited key held, another held, none held. -/
theorem witness_keys :
    (∃ k, ({ boot 0xE09E with key := some 15 } |> reg 0 15).key = some k ∧
      k.val = (getV ({ boot 0xE09E with key := some 15 } |> reg 0 15) 0).toNat) ∧
    (∀ k, (boot 0xE09E).key = some k → k.val ≠ (getV (boot 0xE09E) 0).toNat) :=
  ⟨⟨15, by decide, by decide⟩, fun k h => absurd h (by decide +revert)⟩

/-- TimerAccessReadsAndWritesTheTimers: each clause about a tick. -/
theorem witness_timer_access :
    (boot 0xF007).fault = none ∧ Fetches (boot 0xF007) (.ldVxDt 0) ∧
    (boot 0xFF15).fault = none ∧ Fetches (boot 0xFF15) (.ldDtVx 15) ∧
    (boot 0xF018).fault = none ∧ Fetches (boot 0xF018) (.ldStVx 0) :=
  ⟨by decide, fetches_boot (w := 0xF007) (by decide) (by decide), by decide,
    fetches_boot (w := 0xFF15) (by decide) (by decide), by decide,
    fetches_boot (w := 0xF018) (by decide) (by decide)⟩

/-- KeyWaitKeepsTickingInPlace: no key held, and a V[x] that no key equals. -/
theorem witness_key_wait :
    (boot 0xF00A).fault = none ∧ Fetches (boot 0xF00A) (.waitKeyEq 0) ∧
    (∀ k, (boot 0xF00A).key = some k → k.val ≠ (getV (boot 0xF00A) 0).toNat) ∧
    16 ≤ (getV (boot 0xF00A |> reg 0 16) 0).toNat :=
  ⟨by decide, fetches_boot (w := 0xF00A) (by decide) (by decide),
    fun k h => absurd h (by decide +revert), by decide⟩

/-- StepKeepsTheInvariant: a state with bytes in memory and entries on a limited stack. -/
theorem witness_invariant :
    ({ full with stack := [0x202] }).Inv ∧ ∃ t, step { full with stack := [0x202] } = .next t := by
  refine ⟨⟨by decide, fun k hk => ?_⟩, _, eq_next_of_isNext State.reset (by decide)⟩
  have : k = 2 := by simpa [full] using hk.symm
  subst this
  decide

/-- Every kind of host operation, one after another. -/
def hostEvents : Nat → HostEvent
  | 0 => .load [0x12, 0x00]
  | 1 => .setKey (some 15)
  | 2 => .tick
  | _ => .reset

/-- The states of that run. -/
def hostRun : Nat → State
  | 0 => State.reset
  | k + 1 => nextOf (hostApply (hostEvents k) (hostRun k)) (hostRun k)

/-- HostOperationsKeepTheInvariant. -/
theorem witness_host :
    ((hostRun 0).fault = none → (hostRun 0).Inv) ∧
    ∀ k < 4, hostApply (hostEvents k) (hostRun k) = .next (hostRun (k + 1)) := by
  refine ⟨fun _ => ⟨by decide, fun k _ => Nat.zero_le k⟩, fun k hk => eq_next_of_isNext _ ?_⟩
  have h : ∀ k < 4, isNext (hostApply (hostEvents k) (hostRun k)) = true := by decide
  exact h k hk

end Sys2Proof.Tests
end

