-- ==== Sys2Proof/Proofs/Memory.lean ====
section
/-! PROOFS. The byte order of memory (spec 20_memory.md R55): the value of a word made of two bytes, the
fetch where both bytes at PC are inside the memory, and from these O7. -/

namespace Sys2Proof

/-- The byte at the lower address is the high byte (R55). -/
theorem wordOfBytes_eq_append (hi lo : Byte) : wordOfBytes hi lo = hi ++ lo := by
  rw [BitVec.append_def, BitVec.shiftLeftZeroExtend_eq, BitVec.setWidth'_eq]
  rfl

theorem toNat_wordOfBytes (hi lo : Byte) :
    (wordOfBytes hi lo).toNat = hi.toNat * 256 + lo.toNat := by
  rw [wordOfBytes_eq_append, BitVec.toNat_append, ← Nat.shiftLeft_add_eq_or_of_lt lo.isLt,
    Nat.shiftLeft_eq]

end Sys2Proof

namespace Sys2Proof.Machine

open Sys2Proof

/-- Below the top of the memory the address after `a` does not wrap. -/
theorem toNat_addr_add_one {a : Addr} (h : a.toNat + 1 < Config.memSize) :
    (a + 1).toNat = a.toNat + 1 := by
  have hsize : Config.memSize < 2 ^ 16 := by decide
  exact BitVec.toNat_add_of_lt (h.trans hsize)

/-- Where both bytes at PC are inside the memory, the fetch answers the word they make (R55, R91). -/
theorem fetch_inside {s : State} (h : s.pc.toNat + 1 < Config.memSize) :
    fetch s = .ok (wordOfBytes (byteAt s s.pc.toNat) (byteAt s (s.pc.toNat + 1))) := by
  have hnext := toNat_addr_add_one h
  have hlo : (s.pc + 1).toNat < Config.memSize := hnext ▸ h
  simp only [fetch, readByte_inside .fetch (Nat.lt_of_succ_lt h), readByte_inside .fetch hlo, hnext]

/-- Settles O7: the fetch answers the word of the two bytes at PC, whose value is big-endian. -/
theorem fetchReadsTheBigEndianWord : Obligations.FetchReadsTheBigEndianWord := by
  intro s h
  exact ⟨_, fetch_inside h, toNat_wordOfBytes _ _⟩

end Sys2Proof.Machine
end

section
/-! PROOFS. The fields of a word as numbers (spec 30_encoding.md R71), and from these O19. -/

namespace Sys2Proof

/-- The `n` bits from bit `s` on: drop the `s` bits below, then keep `n`. -/
theorem toNat_extractLsb'_eq_div_mod (w : Word) (s n : Nat) :
    (w.extractLsb' s n).toNat = w.toNat / 2 ^ s % 2 ^ n := by
  rw [BitVec.extractLsb'_toNat, Nat.shiftRight_eq_div_pow]

/-- `p4` is the topmost nibble, so nothing above it has to be cut off. -/
theorem toNat_fieldP4 (w : Word) : (fieldP4 w).toNat = w.toNat / 4096 := by
  have hbits : (fieldP4 w).toNat = w.toNat / 4096 % 16 := toNat_extractLsb'_eq_div_mod w 12 4
  have hlt : w.toNat / 4096 < 16 := Nat.div_lt_of_lt_mul w.isLt
  rw [hbits, Nat.mod_eq_of_lt hlt]

theorem val_fieldX (w : Word) : (fieldX w).val = w.toNat / 256 % 16 :=
  toNat_extractLsb'_eq_div_mod w 8 4

theorem val_fieldY (w : Word) : (fieldY w).val = w.toNat / 16 % 16 :=
  toNat_extractLsb'_eq_div_mod w 4 4

/-- A field that starts at bit 0 is the remainder alone. -/
theorem toNat_extractLsb'_zero_eq_mod (w : Word) (n : Nat) :
    (w.extractLsb' 0 n).toNat = w.toNat % 2 ^ n := by
  rw [toNat_extractLsb'_eq_div_mod, pow_zero, Nat.div_one]

theorem toNat_fieldN (w : Word) : (fieldN w).toNat = w.toNat % 16 :=
  toNat_extractLsb'_zero_eq_mod w 4

theorem toNat_fieldNN (w : Word) : (fieldNN w).toNat = w.toNat % 256 :=
  toNat_extractLsb'_zero_eq_mod w 8

theorem toNat_fieldNNN (w : Word) : (fieldNNN w).toNat = w.toNat % 4096 :=
  toNat_extractLsb'_zero_eq_mod w 12

/-- Settles O19: each of the six fields is the number in its bits. -/
theorem fieldsAreTheNibblesOfTheWord : Obligations.FieldsAreTheNibblesOfTheWord := fun w =>
  ⟨toNat_fieldP4 w, val_fieldX w, val_fieldY w, toNat_fieldN w, toNat_fieldNN w, toNat_fieldNNN w⟩

end Sys2Proof
end

section
/-! PROOFS. The timers over a tick (spec 40_cycle.md R92, R93, R96, R100): what a handler and a tick can do
to DT, ST and SND, and from these O9, O10 and O11. -/

namespace Sys2Proof.Machine

open Sys2Proof

/-! ### The timer step -/

/-- A byte is nonzero exactly when its value is above zero. -/
theorem byte_ne_zero_iff (t : Byte) : t ≠ 0 ↔ 0 < t.toNat :=
  (not_congr BitVec.toNat_inj).symm.trans Nat.pos_iff_ne_zero.symm

/-- One less, and zero stays zero: the subtraction of natural numbers (R92). -/
theorem toNat_countDown (t : Byte) : (countDown t).toNat = t.toNat - 1 := by
  unfold countDown
  split
  case isTrue h =>
    rw [h]
    rfl
  case isFalse h => exact BitVec.toNat_sub_of_le ((byte_ne_zero_iff t).mp h)

/-! ### What a handler does to the timers -/

/-- DT, ST and SND are the same in two states. -/
structure SameTimers (s t : State) : Prop where
  dt  : t.dt = s.dt
  st  : t.st = s.st
  snd : t.snd = s.snd

/-- A run of register writes leaves the timers alone. -/
theorem sameTimers_setRegsFrom (k : Nat) (bs : List Byte) (s : State) :
    SameTimers s (setRegsFrom k bs s) := by
  rw [setRegsFrom_eq]
  exact ⟨rfl, rfl, rfl⟩

/-- The program-counter policy leaves the timers alone. -/
theorem SameTimers.applyPolicy {s t : State} (h : SameTimers s t) (p : Policy) :
    SameTimers s (applyPolicy t p) := by
  obtain ⟨hdt, hst, hsnd⟩ := h
  exact ⟨by simp [hdt], by simp [hst], by simp [hsnd]⟩

/-- All that a handler can do to the timers: Fx15 writes DT, Fx18 writes ST, any other instruction leaves
the timers alone (R92, R93). -/
theorem timers_of_nextForm {i : Instr} {s t : State} (h : NextForm i s t) :
    SameTimers s t ∨
    (∃ x, i = .ldDtVx x ∧ t = { s with dt := getV s x, pc := s.pc + 2 }) ∨
    (∃ x, i = .ldStVx x ∧ t = { s with st := getV s x, pc := s.pc + 2 }) := by
  have same : SameTimers s s := ⟨rfl, rfl, rfl⟩
  cases i
  case ldDtVx x => exact .inr (.inl ⟨x, rfl, h⟩)
  case ldStVx x => exact .inr (.inr ⟨x, rfl, h⟩)
  all_goals left
  case ret =>
    obtain ⟨_, _, -, rfl⟩ := h
    exact ⟨rfl, rfl, rfl⟩
  case call | drw | ldBVx | ldMemVx =>
    obtain ⟨-, rfl⟩ := h
    exact ⟨rfl, rfl, rfl⟩
  case ldVxMem x =>
    obtain ⟨-, rfl⟩ := h
    exact (sameTimers_setRegsFrom ..).applyPolicy _
  case seImm | sneImm | seReg | sneReg | skp | sknp | waitKeyEq =>
    obtain rfl := h
    exact same.applyPolicy _
  all_goals
    obtain rfl := h
    exact ⟨rfl, rfl, rfl⟩

/-! ### What a tick does to the timers -/

/-- A tick that fetches an instruction is its handler after the timer step (R100). -/
theorem step_of_fetches {s : State} {i : Instr} (h : s.fault = none) (hi : Fetches s i) :
    step s = exec i (stepTimers s) := by
  obtain ⟨w, hw, hd⟩ := hi
  rw [step_of_fetch_ok h hw, runWord_ok hd]

/-- The next state of a tick that fetches an instruction has the form of its handler. -/
theorem nextForm_of_fetches {s t : State} {i : Instr} (h : step s = .next t) (hi : Fetches s i) :
    NextForm i (stepTimers s) t := by
  obtain ⟨hfault, -⟩ := step_next_cases h
  rwa [step_of_fetches hfault hi, exec_next_iff] at h

/-- All that a tick can do to the timers: the timer step, and after it the write of a fetched Fx15 or Fx18
(R92, R93). -/
theorem timers_of_step {s t : State} (h : step s = .next t) :
    SameTimers (stepTimers s) t ∨
    (∃ x, Fetches s (.ldDtVx x) ∧ t = { stepTimers s with dt := getV s x, pc := s.pc + 2 }) ∨
    (∃ x, Fetches s (.ldStVx x) ∧ t = { stepTimers s with st := getV s x, pc := s.pc + 2 }) := by
  obtain ⟨-, w, hw, ⟨i, hd, hexec⟩ | ⟨-, -, rfl⟩⟩ := step_next_cases h
  · rcases timers_of_nextForm ((exec_next_iff ..).mp hexec) with
      hsame | ⟨x, rfl, ht⟩ | ⟨x, rfl, ht⟩
    · exact .inl hsame
    · exact .inr (.inl ⟨x, ⟨w, hw, hd⟩, ht⟩)
    · exact .inr (.inr ⟨x, ⟨w, hw, hd⟩, ht⟩)
  · exact .inl ⟨rfl, rfl, rfl⟩

theorem dt_of_step {s t : State} (h : step s = .next t) (hx : ∀ x, ¬ Fetches s (.ldDtVx x)) :
    t.dt = countDown s.dt := by
  rcases timers_of_step h with ⟨hdt, -, -⟩ | ⟨x, hf, -⟩ | ⟨-, -, rfl⟩
  · exact hdt
  · exact absurd hf (hx x)
  · rfl

theorem st_of_step {s t : State} (h : step s = .next t) (hx : ∀ x, ¬ Fetches s (.ldStVx x)) :
    t.st = countDown s.st := by
  rcases timers_of_step h with ⟨-, hst, -⟩ | ⟨-, -, rfl⟩ | ⟨x, hf, -⟩
  · exact hst
  · rfl
  · exact absurd hf (hx x)

/-- SND is recomputed in every tick, from ST before its count (R93). -/
theorem snd_of_step {s t : State} (h : step s = .next t) : t.snd = true ↔ 0 < s.st.toNat := by
  have hsnd : t.snd = decide (s.st ≠ 0) := by
    rcases timers_of_step h with ⟨-, -, hsnd⟩ | ⟨-, -, rfl⟩ | ⟨-, -, rfl⟩
    · exact hsnd
    · rfl
    · rfl
  rw [hsnd, decide_eq_true_iff, byte_ne_zero_iff]

/-- Over a run that fetches no Fx18, ST is its starting value minus the ticks taken. -/
theorem st_of_run {f : Nat → State} {n : Nat}
    (hrun : ∀ k < n, step (f k) = .next (f (k + 1)) ∧ ∀ x, ¬ Fetches (f k) (.ldStVx x))
    {k : Nat} (hk : k ≤ n) : (f k).st.toNat = (f 0).st.toNat - k := by
  induction k with
  | zero => rfl
  | succ k ih =>
    obtain ⟨hstep, hx⟩ := hrun k hk
    rw [st_of_step hstep hx, toNat_countDown, ih (Nat.le_of_succ_le hk), Nat.sub_sub]

/-! ### The obligations -/

/-- Settles O10: each tick by its timer step, and a run by induction on its ticks. -/
theorem soundFlagIsOnForExactlyTheTicksCounted :
    Obligations.SoundFlagIsOnForExactlyTheTicksCounted := by
  refine ⟨fun s t h => ⟨snd_of_step h, fun hx => ?_, fun x hf => ?_⟩, fun f n hrun k hpos hk => ?_⟩
  · rw [st_of_step h hx, toNat_countDown]
  · obtain rfl := nextForm_of_fetches h hf
    rfl
  · refine ⟨st_of_run hrun hk, ?_⟩
    obtain ⟨j, rfl⟩ := Nat.exists_eq_add_of_le' hpos
    obtain ⟨hstep, -⟩ := hrun j hk
    rw [snd_of_step hstep, st_of_run hrun (Nat.le_of_succ_le hk), Nat.sub_pos_iff_lt,
      Nat.lt_iff_add_one_le]

/-- Settles O9: the timer step comes before the handler, which for Fx15 overwrites the counted DT and for
Fx07 reads it. -/
theorem delayTimerCountsDownOncePerTick : Obligations.DelayTimerCountsDownOncePerTick := by
  refine fun s t h => ⟨fun hx => ?_, fun x hf => ?_, fun x hf => ?_⟩
  · rw [dt_of_step h hx, toNat_countDown]
  · obtain rfl := nextForm_of_fetches h hf
    rfl
  · obtain rfl := nextForm_of_fetches h hf
    rw [getV_applyPolicy, getV_setV_same, stepTimers_dt, toNat_countDown]

/-- Settles O11: the tick runs the no-op of an unrecognised word on the state after the timer step. -/
theorem unrecognisedWordIsANoOpTick : Obligations.UnrecognisedWordIsANoOpTick := by
  intro s w e hfault hw hd
  rw [step_of_fetch_ok hfault hw, runWord_error hd]
  rfl

end Sys2Proof.Machine
end

section
/-! PROOFS. The conditional skips (spec 41_control_flow.md R113-R116): the words that the leading digit alone
decides, the outcome of a handler that only reports a policy, and from these O32. -/

namespace Sys2Proof

/-- A word whose masked digits are `p` has the leading digit of `p`. -/
theorem fieldP4_of_mask {w p : Word} (h : w &&& 0xF000 = p) : fieldP4 w = fieldP4 p :=
  (fieldP4_mask w).symm.trans (congrArg fieldP4 h)

theorem decodeWord_seImm {w : Word} (h : w &&& 0xF000 = 0x3000) :
    decodeWord w = .ok (.seImm (fieldX w) (fieldNN w)) := by
  rw [decodeWord, fieldP4_of_mask h]
  rfl

theorem decodeWord_sneImm {w : Word} (h : w &&& 0xF000 = 0x4000) :
    decodeWord w = .ok (.sneImm (fieldX w) (fieldNN w)) := by
  rw [decodeWord, fieldP4_of_mask h]
  rfl

end Sys2Proof

namespace Sys2Proof.Machine

open Sys2Proof

/-- A conditional skip advances PC by two words when its condition holds, else by one. -/
theorem applyPolicy_skipIf_pc (s : State) (c : Bool) :
    (applyPolicy s (skipIf c)).pc = if c then s.pc + 4 else s.pc + 2 := by
  cases c <;> rfl

/-- Settles O32: both handlers report a conditional skip and do nothing else; 4xnn tests the negation. -/
theorem immediateSkipsCompareTheRegister : Obligations.ImmediateSkipsCompareTheRegister := by
  refine ⟨fun _ => decodeWord_seImm, fun _ => decodeWord_sneImm, fun x nn s => ⟨?_, ?_⟩⟩
  · refine ⟨_, (exec_next_iff (.seImm x nn) s _).mpr rfl, applyPolicy_v _ _, ?_⟩
    simp only [applyPolicy_skipIf_pc, decide_eq_true_iff]
  · refine ⟨_, (exec_next_iff (.sneImm x nn) s _).mpr rfl, applyPolicy_v _ _, ?_⟩
    simp only [applyPolicy_skipIf_pc, decide_eq_true_iff, ne_eq, ite_not]

end Sys2Proof.Machine
end

section
/-! PROOFS. The instructions that write one result register (spec 42_arithmetic.md R142-R144): their words,
the outcome of a handler that writes one register, and from these O35 and O36. -/

namespace Sys2Proof

theorem decodeWord_ldImm {w : Word} (h : w &&& 0xF000 = 0x6000) :
    decodeWord w = .ok (.ldImm (fieldX w) (fieldNN w)) := by
  rw [decodeWord, fieldP4_of_mask h]
  rfl

theorem decodeWord_addImm {w : Word} (h : w &&& 0xF000 = 0x7000) :
    decodeWord w = .ok (.addImm (fieldX w) (fieldNN w)) := by
  rw [decodeWord, fieldP4_of_mask h]
  rfl

/-- A word whose digits under the mask of formats XY and XYN are `p` has the leading digit of `p`. -/
theorem fieldP4_of_maskN {w p : Word} (h : w &&& 0xF00F = p) : fieldP4 w = fieldP4 p :=
  (fieldP4_maskN w).symm.trans (congrArg fieldP4 h)

/-- A word whose digits under the mask of formats XY and XYN are `p` has the last digit of `p`. -/
theorem fieldN_of_maskN {w p : Word} (h : w &&& 0xF00F = p) : fieldN w = fieldN p :=
  (fieldN_maskN w).symm.trans (congrArg fieldN h)

theorem decodeWord_ldReg {w : Word} (h : w &&& 0xF00F = 0x8000) :
    decodeWord w = .ok (.ldReg (fieldX w) (fieldY w)) := by
  rw [decodeWord, fieldP4_of_maskN h]
  exact if_pos (fieldN_of_maskN h)

end Sys2Proof

namespace Sys2Proof.Machine

open Sys2Proof

/-- A handler whose next state has one register written and PC advanced completes, and every other register
keeps its value. -/
theorem exec_of_nextForm_setV {i : Instr} {s : State} {x : Reg} {b : Byte}
    (h : NextForm i s (applyPolicy (setV s x b) .next)) :
    ∃ t, exec i s = .next t ∧ t.pc = s.pc + 2 ∧ ∀ r, getV t r = if r = x then b else getV s r :=
  ⟨_, (exec_next_iff i s _).mpr h, rfl, fun r => (getV_applyPolicy ..).trans (getV_setV s x r b)⟩

/-- Settles O35: both handlers write one register, with nn or with V[y] as it was. -/
theorem loadImmediateAndCopyWriteTheDestination :
    Obligations.LoadImmediateAndCopyWriteTheDestination :=
  ⟨fun _ => decodeWord_ldImm, fun _ => decodeWord_ldReg,
    fun _ _ _ => exec_of_nextForm_setV rfl, fun _ _ _ => exec_of_nextForm_setV rfl⟩

/-- Settles O36: the handler writes the sum of bytes to V[x] alone, VF an ordinary destination. -/
theorem addImmediateWrapsWithoutFlag : Obligations.AddImmediateWrapsWithoutFlag := by
  refine ⟨fun _ => decodeWord_addImm, fun x nn s => ?_⟩
  obtain ⟨t, hexec, hpc, hregs⟩ := exec_of_nextForm_setV (i := .addImm x nn) (s := s) rfl
  refine ⟨t, hexec, hpc, ?_, fun r hr => (hregs r).trans (if_neg hr)⟩
  have hx : getV t x = getV s x + nn := (hregs x).trans (if_pos rfl)
  rw [hx, BitVec.toNat_add]

end Sys2Proof.Machine
end

section
/-! PROOFS. The instructions that load I (spec 43_index_memory.md R171, R173): their words, the two addresses
as numbers, the outcome of a handler that writes I alone, and from these O42. -/

namespace Sys2Proof

theorem decodeWord_ldI {w : Word} (h : w &&& 0xF000 = 0xA000) :
    decodeWord w = .ok (.ldI (fieldNNN w)) := by
  rw [decodeWord, fieldP4_of_mask h]
  rfl

/-- A word whose digits under the mask of format XNN with a fixed byte are `p` has the leading digit of `p`. -/
theorem fieldP4_of_maskNN {w p : Word} (h : w &&& 0xF0FF = p) : fieldP4 w = fieldP4 p :=
  (fieldP4_maskNN w).symm.trans (congrArg fieldP4 h)

/-- A word whose digits under the mask of format XNN with a fixed byte are `p` has the low byte of `p`. -/
theorem fieldNN_of_maskNN {w p : Word} (h : w &&& 0xF0FF = p) : fieldNN w = fieldNN p :=
  (fieldNN_maskNN w).symm.trans (congrArg fieldNN h)

theorem decodeWord_ldFVx {w : Word} (h : w &&& 0xF0FF = 0xF029) :
    decodeWord w = .ok (.ldFVx (fieldX w)) := by
  rw [decodeWord, fieldP4_of_maskNN h]
  change decodeF w = _
  rw [decodeF, fieldNN_of_maskNN h]
  rfl

end Sys2Proof

namespace Sys2Proof.Machine

open Sys2Proof

theorem toNat_addrOf (nnn : Addr12) : (addrOf nnn).toNat = nnn.toNat :=
  BitVec.toNat_setWidth_of_le (by decide)

theorem toNat_addendOf (b : Byte) : (addendOf b).toNat = b.toNat :=
  BitVec.toNat_setWidth_of_le (by decide)

/-- Five times a byte is at most 1275, so the product does not wrap at 16 bits. -/
theorem toNat_glyphAddr (b : Byte) : (glyphAddr b).toNat = b.toNat * 5 := by
  have hlt : b.toNat * 5 < 2 ^ 16 := by have := b.isLt; omega
  calc (glyphAddr b).toNat
      = (addendOf b).toNat * 5 % 2 ^ 16 := BitVec.toNat_mul ..
    _ = b.toNat * 5 % 2 ^ 16 := by rw [toNat_addendOf]
    _ = b.toNat * 5 := Nat.mod_eq_of_lt hlt

/-- A handler whose next state has I loaded with `a` and PC advanced completes, and changes no register. -/
theorem exec_of_nextForm_index {i : Instr} {s : State} {a : Addr} {n : Nat}
    (h : NextForm i s { s with i := a, pc := s.pc + 2 }) (ha : a.toNat = n) :
    ∃ t, exec i s = .next t ∧ t.pc = s.pc + 2 ∧ t.i.toNat = n ∧ t.v = s.v :=
  ⟨_, (exec_next_iff i s _).mpr h, rfl, ha, rfl⟩

/-- Settles O42: both handlers write I alone, with nnn or with five times the whole byte V[x]. -/
theorem indexLoadsSetTheIndex : Obligations.IndexLoadsSetTheIndex :=
  ⟨fun _ => decodeWord_ldI, fun _ => decodeWord_ldFVx,
    fun nnn _ => exec_of_nextForm_index rfl (toNat_addrOf nnn),
    fun x s => exec_of_nextForm_index rfl (toNat_glyphAddr (getV s x))⟩

end Sys2Proof.Machine
end

section
/-! PROOFS. The frame buffer (spec 44_display.md R190-R193): what the sprite draw gives at each pixel and as
its collision result, the clear, and from these O51 and O50. -/

namespace Sys2Proof.Machine

open Sys2Proof

/-! ### The sprite draw -/

/-- Reading a pixel wraps both axes by itself (R191). -/
@[simp] theorem pixel_mod (fb : FrameBuffer) (x y : Nat) :
    pixel fb (x % 64) (y % 32) = pixel fb x y :=
  pixel_congr fb (by simp [pixelKey])

/-- The draw is the run of plots over the sprite's points, from no collision. -/
theorem drawSprite_eq_plotAll (ox oy : Byte) (rows : List Byte) (fb : FrameBuffer) :
    drawSprite ox oy rows fb = plotAll (spritePoints ox.toNat oy.toNat rows) (fb, false) :=
  drawRows_eq_plotAll ..

section

variable {rows : List Byte} (hlen : rows.length ≤ 32) (ox oy : Byte) (fb : FrameBuffer)

include hlen

/-- A pixel that a bit position of the sprite reaches is inverted when the bit is set. -/
theorem pixel_drawSprite_reached {r : Nat} (hr : r < rows.length) {b : Nat} (hb : b < 8) :
    pixel (drawSprite ox oy rows fb).1 (ox.toNat + b) (oy.toNat + r) =
      (pixel fb (ox.toNat + b) (oy.toNat + r) ^^ spriteBit rows[r] b) := by
  obtain ⟨hreached, -, -⟩ := plotAll_spec _ fb false (nodup_spritePoints ox.toNat oy.toNat rows hlen)
  rw [drawSprite_eq_plotAll]
  exact hreached _ (mem_spritePoints.mpr ⟨r, hr, b, hb, rfl⟩)

/-- A pixel that no bit position of the sprite reaches keeps its value. -/
theorem pixel_drawSprite_unreached {x y : Nat}
    (h : ∀ r < rows.length, ∀ b < 8, pixelKey (ox.toNat + b) (oy.toNat + r) ≠ pixelKey x y) :
    pixel (drawSprite ox oy rows fb).1 x y = pixel fb x y := by
  obtain ⟨-, hunreached, -⟩ := plotAll_spec _ fb false (nodup_spritePoints ox.toNat oy.toNat rows hlen)
  rw [drawSprite_eq_plotAll]
  refine hunreached x y fun hmem => ?_
  obtain ⟨q, hq, hkey⟩ := List.mem_map.mp hmem
  obtain ⟨r, hr, b, hb, rfl⟩ := mem_spritePoints.mp hq
  exact h r hr b hb hkey

/-- The draw collides exactly when a set bit of the sprite meets a lit pixel (R192). -/
theorem drawSprite_collides_iff :
    (drawSprite ox oy rows fb).2 = true ↔
      ∃ r, ∃ hr : r < rows.length, ∃ b < 8,
        pixel fb (ox.toNat + b) (oy.toNat + r) = true ∧ spriteBit rows[r] b = true := by
  obtain ⟨-, -, hcollides⟩ := plotAll_spec _ fb false (nodup_spritePoints ox.toNat oy.toNat rows hlen)
  rw [drawSprite_eq_plotAll, hcollides]
  constructor
  · rintro (hfalse | ⟨q, hq, hlit⟩)
    · exact absurd hfalse Bool.false_ne_true
    · obtain ⟨r, hr, b, hb, rfl⟩ := mem_spritePoints.mp hq
      exact ⟨r, hr, b, hb, hlit⟩
  · rintro ⟨r, hr, b, hb, hlit⟩
    exact .inr ⟨_, mem_spritePoints.mpr ⟨r, hr, b, hb, rfl⟩, hlit⟩

end

/-- Settles O51: the points of the sprite are distinct pixels, so each is plotted once. -/
theorem spriteDrawIsXorWithExactCollision : Obligations.SpriteDrawIsXorWithExactCollision := by
  intro ox oy rows fb hlen
  simp only [pixel_mod]
  refine ⟨fun r hr b hb => pixel_drawSprite_reached hlen ox oy fb hr hb, fun x hx y hy h => ?_,
    drawSprite_collides_iff hlen ox oy fb⟩
  refine pixel_drawSprite_unreached hlen ox oy fb fun r hr b hb hkey => h r hr b hb ?_
  obtain ⟨hkx, hky⟩ := Prod.mk.inj hkey
  exact ⟨(hkx.trans (Nat.mod_eq_of_lt hx)).symm, (hky.trans (Nat.mod_eq_of_lt hy)).symm⟩

/-! ### The clear -/

/-- Settles O50: the handler puts the dark frame buffer in place and changes nothing else but PC. -/
theorem clearDarkensEveryPixel : Obligations.ClearDarkensEveryPixel :=
  ⟨by decide, fun s => ⟨_, (exec_next_iff .cls s _).mpr rfl, rfl, rfl, fun x _ y _ => pixel_dark x y⟩⟩

end Sys2Proof.Machine
end

section
/-! PROOFS. The key skips (spec 45_keypad_timers.md R210-R212): their words, the key comparison as a
proposition, and from these O54. -/

namespace Sys2Proof

/-- A word whose leading digit is that of the E group is decoded by its low byte. -/
theorem decodeWord_of_maskNN_E {w p : Word} (h : w &&& 0xF0FF = p) (hp : fieldP4 p = 0xE) :
    decodeWord w = decodeE w := by
  rw [decodeWord, fieldP4_of_maskNN h, hp]
  rfl

theorem decodeWord_skp {w : Word} (h : w &&& 0xF0FF = 0xE09E) :
    decodeWord w = .ok (.skp (fieldX w)) := by
  rw [decodeWord_of_maskNN_E h (by decide), decodeE, fieldNN_of_maskNN h]
  rfl

theorem decodeWord_sknp {w : Word} (h : w &&& 0xF0FF = 0xE0A1) :
    decodeWord w = .ok (.sknp (fieldX w)) := by
  rw [decodeWord_of_maskNN_E h (by decide), decodeE, fieldNN_of_maskNN h]
  rfl

end Sys2Proof

namespace Sys2Proof.Machine

open Sys2Proof

/-- The key comparison is true exactly when a key is held whose code is the whole byte (R210). -/
theorem keyIs_eq_true_iff (s : State) (b : Byte) :
    keyIs s b = true ↔ ∃ k, s.key = some k ∧ k.val = b.toNat := by
  cases hkey : s.key with
  | none => simp [keyIs, hkey]
  | some k => simp [keyIs, hkey]

/-- The key comparison is false exactly when every held key has another code: no key counts as not equal
(R210). -/
theorem keyIs_eq_false_iff (s : State) (b : Byte) :
    keyIs s b = false ↔ ∀ k, s.key = some k → k.val ≠ b.toNat := by
  rw [← Bool.not_eq_true, keyIs_eq_true_iff]
  simp only [not_exists, not_and, ne_eq]

/-- A handler that only reports a conditional skip completes, changes no register, and advances PC by two
words when its condition holds, else by one. -/
theorem exec_of_nextForm_skipIf {i : Instr} {s : State} {c : Bool}
    (h : NextForm i s (applyPolicy s (skipIf c))) :
    ∃ t, exec i s = .next t ∧ t.v = s.v ∧ t.pc = if c then s.pc + 4 else s.pc + 2 :=
  ⟨_, (exec_next_iff i s _).mpr h, applyPolicy_v _ _, applyPolicy_skipIf_pc s c⟩

/-- Settles O54: Ex9E skips on the key comparison and ExA1 on its negation. -/
theorem keySkipsCompareTheWholeByte : Obligations.KeySkipsCompareTheWholeByte := by
  refine ⟨fun _ => decodeWord_skp, fun _ => decodeWord_sknp, fun x s => ?_⟩
  simp only [← keyIs_eq_true_iff, ← keyIs_eq_false_iff]
  constructor
  · obtain ⟨t, hexec, hv, hpc⟩ := exec_of_nextForm_skipIf (i := .skp x) (s := s) rfl
    exact ⟨t, hexec, hv, fun hheld => by simp [hpc, hheld], fun hnot => by simp [hpc, hnot]⟩
  · obtain ⟨t, hexec, hv, hpc⟩ := exec_of_nextForm_skipIf (i := .sknp x) (s := s) rfl
    exact ⟨t, hexec, hv, fun hheld => by simp [hpc, hheld], fun hnot => by simp [hpc, hnot]⟩

end Sys2Proof.Machine
end

section
/-! PROOFS. The stack underflow (spec 60_exceptions.md R231): the one word of 00EE, all that a tick can fault
with, the handler that raises the underflow, and from these O15. -/

namespace Sys2Proof

/-! ### The word of 00EE (30_encoding.md R74) -/

theorem decode0_eq_ret_iff (w : Word) : decode0 w = .ok .ret ↔ w = 0x00EE := by
  unfold decode0
  split_ifs with hcls hret
  · subst hcls
    decide
  · exact iff_of_true rfl hret
  · exact iff_of_false nofun hret

theorem decode8_ne_ret (w : Word) : decode8 w ≠ .ok .ret := by
  simp only [decode8]
  split_ifs <;> nofun

theorem decodeE_ne_ret (w : Word) : decodeE w ≠ .ok .ret := by
  simp only [decodeE]
  split_ifs <;> nofun

theorem decodeF_ne_ret (w : Word) : decodeF w ≠ .ok .ret := by
  simp only [decodeF]
  split_ifs <;> nofun

/-- The leading digit 0 alone leads to 00EE. -/
theorem decodeWord_eq_ret_iff (w : Word) : decodeWord w = .ok .ret ↔ w = 0x00EE := by
  constructor
  · intro h
    unfold decodeWord at h
    split at h
    case h_1 => exact (decode0_eq_ret_iff w).mp h
    case h_6 | h_10 =>
      split_ifs at h
      cases h
    case h_9 => exact absurd h (decode8_ne_ret w)
    case h_15 => exact absurd h (decodeE_ne_ret w)
    case h_16 => exact absurd h (decodeF_ne_ret w)
    all_goals cases h
  · rintro rfl
    decide

end Sys2Proof

namespace Sys2Proof.Machine

open Sys2Proof

theorem fetches_ret_iff (s : State) : Fetches s .ret ↔ fetch s = .ok 0x00EE := by
  simp only [Fetches, decodeWord_eq_ret_iff, exists_eq_right]

/-! ### What a tick can fault with (R230) -/

/-- A tick faults with the fault of its fetch or, once an instruction is fetched, with that of its handler: an
unrecognised word raises none. -/
theorem step_eq_fault_iff {s : State} (h : s.fault = none) (r : Fault) :
    step s = .fault r ↔
      fetch s = .error r ∨ ∃ i, Fetches s i ∧ exec i (stepTimers s) = .fault r := by
  cases hf : fetch s with
  | error r' => simp [step_of_fetch_error h hf, Fetches, hf]
  | ok w =>
    cases hd : decodeWord w with
    | ok i => simp [step_of_fetch_ok h hf, runWord_ok hd, Fetches, hf, hd]
    | error e => simp [step_of_fetch_ok h hf, runWord_error hd, Fetches, hf, hd]

/-- The fetch faults for its memory accesses alone (R232). -/
theorem fetch_ne_stackUnderflow (s : State) (a : Addr) : fetch s ≠ .error (.stackUnderflow a) := by
  rcases fetch_cases s with ⟨-, hw⟩ | ⟨b, -, hb⟩
  · simp [hw]
  · simp [hb]

/-- Of the handlers, only that of 00EE underflows, on an empty stack and with its PC (R231). -/
theorem exec_eq_stackUnderflow_iff (i : Instr) (s : State) (a : Addr) :
    exec i s = .fault (.stackUnderflow a) ↔ i = .ret ∧ s.stack = [] ∧ a = s.pc := by
  constructor
  · intro h
    rcases exec_cases i s with ⟨t, ht, -⟩ | ⟨hi, hstack, hr⟩ | ⟨-, -, hr⟩ | ⟨b, -, hr⟩ | ⟨b, -, hr⟩
    · simp [ht] at h
    · refine ⟨hi, hstack, ?_⟩
      rw [hr] at h
      cases h
      rfl
    · simp [hr] at h
    · simp [hr] at h
    · simp [hr] at h
  · rintro ⟨rfl, hstack, rfl⟩
    exact exec_ret_nil hstack

/-- Settles O15: the fetch raises no underflow, so the handler of a fetched 00EE does, and the timer step before
it changes neither the stack nor PC. -/
theorem stackUnderflowIsRaisedBy00EEAlone : Obligations.StackUnderflowIsRaisedBy00EEAlone := by
  intro s a hfault
  simp only [step_eq_fault_iff hfault, fetch_ne_stackUnderflow, false_or, exec_eq_stackUnderflow_iff,
    stepTimers_stack, stepTimers_pc, ← fetches_ret_iff]
  constructor
  · rintro ⟨i, hi, rfl, hstack, hpc⟩
    exact ⟨hi, hstack, hpc⟩
  · rintro ⟨hi, hstack, hpc⟩
    exact ⟨.ret, hi, rfl, hstack, hpc⟩

end Sys2Proof.Machine
end

section
/-! PROOFS. The snapshot of the frame buffer (spec 60_exceptions.md R242): its cells by their row-major index, and
from these O5. -/

namespace Sys2Proof.Machine

open Sys2Proof

theorem length_hostFrame (s : State) : (hostFrame s).length = 64 * 32 := by
  simp only [hostFrame, List.length_map, List.length_range]

theorem getElem?_hostFrame (s : State) {k : Nat} (h : k < 64 * 32) :
    (hostFrame s)[k]? = some (pixelByte (pixel s.fb (k % 64) (k / 64))) := by
  rw [hostFrame, List.getElem?_map, List.getElem?_range h]
  rfl

/-- Settles O5: the cell y*64 + x has column x and row y. -/
theorem frameIsTheRowMajorSnapshot : Obligations.FrameIsTheRowMajorSnapshot := by
  refine fun s => ⟨length_hostFrame s, fun x hx y hy => ?_⟩
  have hcell : y * 64 + x < 64 * 32 := by omega
  have hcolumn : (y * 64 + x) % 64 = x := by omega
  have hrow : (y * 64 + x) / 64 = y := by omega
  rw [getElem?_hostFrame s hcell, hcolumn, hrow]
  rfl

end Sys2Proof.Machine
end

section
/-! PROOFS. The decoder against the encoder and the opcode table (spec 30_encoding.md R72-R77): each is the
inverse of the other, a word of a row decodes to an instruction of that row, and from these O21, O22, O20, O23
and O24. -/

namespace Sys2Proof

/-! ### Decode after encode -/

/-- The encoder's word of a well-formed instruction decodes to it: the leading digit selects the row or the
group, the sub-opcode the row in its group, and the fields give the operands back. -/
theorem decodeWord_encode {i : Instr} (h : i.wellFormed = true) : decodeWord (encode i) = .ok i := by
  cases i
  case cls | ret => decide
  case ldReg | orReg | andReg | xorReg | addReg | sub | shr | subn | shl =>
    simp [encode, decodeWord, decode8]
  case skp | sknp => simp [encode, decodeWord, decodeE]
  case ldVxDt | waitKeyEq | ldDtVx | ldStVx | addIVx | ldFVx | ldBVx | ldMemVx | ldVxMem =>
    simp [encode, decodeWord, decodeF]
  case drw x y n =>
    have hn : n % 16 = n := Nat.mod_eq_of_lt (Nat.lt_succ_of_le (of_decide_eq_true h))
    simp [encode, decodeWord, hn]
  all_goals simp [encode, decodeWord]

/-- Settles O21: the two bytes make the word again, which decodes to the instruction. -/
theorem decodeOfEncodeIsTheInstruction : Obligations.DecodeOfEncodeIsTheInstruction := by
  intro i rest h
  rw [decode_two, wordOfBytes_bytes, decodeWord_encode h]

/-! ### Encode after decode -/

/-- The instruction is well formed and `w` is its word. -/
def EncodesTo (i : Instr) (w : Word) : Prop := encode i = w ∧ i.wellFormed = true

theorem formNNN_of_field {w : Word} {p : BitVec 4} (hp : fieldP4 w = p) :
    formNNN p (fieldNNN w) = w := by
  rw [← hp, formNNN_fields]

theorem formXNN_of_field {w : Word} {p : BitVec 4} (hp : fieldP4 w = p) :
    formXNN p (fieldX w) (fieldNN w) = w := by
  rw [← hp, formXNN_fields]

theorem formXNN_of_fields {w : Word} {p : BitVec 4} {b : Byte} (hp : fieldP4 w = p)
    (hb : fieldNN w = b) : formXNN p (fieldX w) b = w := by
  rw [← hb, formXNN_of_field hp]

theorem formXYN_of_fields {w : Word} {p n : BitVec 4} (hp : fieldP4 w = p) (hn : fieldN w = n) :
    formXYN p (fieldX w) (fieldY w) n = w := by
  rw [← hp, ← hn, formXYN_fields]

theorem encodesTo_of_decode0 {w : Word} {i : Instr} (h : decode0 w = .ok i) : EncodesTo i w := by
  unfold decode0 at h
  split_ifs at h with hcls hret
  · cases h
    exact ⟨hcls.symm, rfl⟩
  · cases h
    exact ⟨hret.symm, rfl⟩

theorem encodesTo_of_decode8 {w : Word} {i : Instr} (hp : fieldP4 w = 0x8) (h : decode8 w = .ok i) :
    EncodesTo i w := by
  simp only [decode8] at h
  split_ifs at h
  all_goals
    cases h
    exact ⟨formXYN_of_fields hp ‹_›, rfl⟩

theorem encodesTo_of_decodeE {w : Word} {i : Instr} (hp : fieldP4 w = 0xE) (h : decodeE w = .ok i) :
    EncodesTo i w := by
  simp only [decodeE] at h
  split_ifs at h
  all_goals
    cases h
    exact ⟨formXNN_of_fields hp ‹_›, rfl⟩

theorem encodesTo_of_decodeF {w : Word} {i : Instr} (hp : fieldP4 w = 0xF) (h : decodeF w = .ok i) :
    EncodesTo i w := by
  simp only [decodeF] at h
  split_ifs at h
  all_goals
    cases h
    exact ⟨formXNN_of_fields hp ‹_›, rfl⟩

/-- The leading digit from its value. -/
theorem fieldP4_eq_of_toNat {w : Word} {p : Nat} (h : (fieldP4 w).toNat = p) :
    fieldP4 w = BitVec.ofNat 4 p := by
  rw [← h, BitVec.ofNat_toNat, BitVec.setWidth_eq]

/-- A decoded word keeps all its bits in its instruction: the fixed digits in the constructor, the others in the
operands. -/
theorem encodesTo_of_decodeWord {w : Word} {i : Instr} (h : decodeWord w = .ok i) : EncodesTo i w := by
  unfold decodeWord at h
  split at h
  case h_17 => cases h
  all_goals
    rename_i hp
    replace hp := fieldP4_eq_of_toNat hp
  case h_1 => exact encodesTo_of_decode0 h
  case h_9 => exact encodesTo_of_decode8 hp h
  case h_15 => exact encodesTo_of_decodeE hp h
  case h_16 => exact encodesTo_of_decodeF hp h
  case h_6 | h_10 =>
    split_ifs at h with hn
    cases h
    exact ⟨formXYN_of_fields hp hn, rfl⟩
  case h_14 =>
    cases h
    have hn : (fieldN w).toNat ≤ 15 := Nat.le_of_lt_succ (fieldN w).isLt
    exact ⟨formXYN_of_fields hp (by simp), decide_eq_true hn⟩
  case h_2 | h_3 | h_11 | h_12 =>
    cases h
    exact ⟨formNNN_of_field hp, rfl⟩
  all_goals
    cases h
    exact ⟨formXNN_of_field hp, rfl⟩

/-- Settles O22: by the fields of the word. -/
theorem encodeOfDecodeIsTheWord : Obligations.EncodeOfDecodeIsTheWord :=
  fun _ _ => encodesTo_of_decodeWord

/-! ### The opcode table (R74) -/

theorem decodeWord_group8 {w : Word} (h : fieldP4 w = 0x8) : decodeWord w = decode8 w := by
  rw [decodeWord, h]
  rfl

theorem decodeWord_groupE {w : Word} (h : fieldP4 w = 0xE) : decodeWord w = decodeE w := by
  rw [decodeWord, h]
  rfl

theorem decodeWord_groupF {w : Word} (h : fieldP4 w = 0xF) : decodeWord w = decodeF w := by
  rw [decodeWord, h]
  rfl

theorem decodeWord_seReg {w : Word} (h : w &&& 0xF00F = 0x5000) :
    decodeWord w = .ok (.seReg (fieldX w) (fieldY w)) := by
  rw [decodeWord, fieldP4_of_maskN h]
  exact if_pos (fieldN_of_maskN h)

theorem decodeWord_sneReg {w : Word} (h : w &&& 0xF00F = 0x9000) :
    decodeWord w = .ok (.sneReg (fieldX w) (fieldY w)) := by
  rw [decodeWord, fieldP4_of_maskN h]
  exact if_pos (fieldN_of_maskN h)

/-- A word of the row of an instruction decodes to an instruction of that row. -/
theorem row_decodeWord (j : Instr) {w : Word} (h : w &&& j.row.mask = j.row.pattern) :
    (decodeWord w).map Instr.row = .ok j.row := by
  cases j
  all_goals simp only [Instr.row] at h
  case cls | ret =>
    obtain rfl := (BitVec.and_allOnes (x := w)).symm.trans h
    rfl
  case seReg => rw [decodeWord_seReg h]; rfl
  case sneReg => rw [decodeWord_sneReg h]; rfl
  case ldReg | orReg | andReg | xorReg | addReg | sub | shr | subn | shl =>
    rw [decodeWord_group8 (fieldP4_of_maskN h), decode8, fieldN_of_maskN h]
    rfl
  case skp | sknp =>
    rw [decodeWord_groupE (fieldP4_of_maskNN h), decodeE, fieldNN_of_maskNN h]
    rfl
  case ldVxDt | waitKeyEq | ldDtVx | ldStVx | addIVx | ldFVx | ldBVx | ldMemVx | ldVxMem =>
    rw [decodeWord_groupF (fieldP4_of_maskNN h), decodeF, fieldNN_of_maskNN h]
    rfl
  all_goals
    rw [decodeWord, fieldP4_of_mask h]
    rfl


/-- The encoded word of an instruction is of its row. -/
theorem encode_matchesRow : ∀ i : Instr, Laws.MatchesRow.Statement i
  | .cls => Laws.MatchesRow.cls
  | .ret => Laws.MatchesRow.ret
  | .jp nnn => Laws.MatchesRow.jp nnn
  | .call nnn => Laws.MatchesRow.call nnn
  | .seImm x nn => Laws.MatchesRow.seImm x nn
  | .sneImm x nn => Laws.MatchesRow.sneImm x nn
  | .seReg x y => Laws.MatchesRow.seReg x y
  | .ldImm x nn => Laws.MatchesRow.ldImm x nn
  | .addImm x nn => Laws.MatchesRow.addImm x nn
  | .ldReg x y => Laws.MatchesRow.ldReg x y
  | .orReg x y => Laws.MatchesRow.orReg x y
  | .andReg x y => Laws.MatchesRow.andReg x y
  | .xorReg x y => Laws.MatchesRow.xorReg x y
  | .addReg x y => Laws.MatchesRow.addReg x y
  | .sub x y => Laws.MatchesRow.sub x y
  | .shr x y => Laws.MatchesRow.shr x y
  | .subn x y => Laws.MatchesRow.subn x y
  | .shl x y => Laws.MatchesRow.shl x y
  | .sneReg x y => Laws.MatchesRow.sneReg x y
  | .ldI nnn => Laws.MatchesRow.ldI nnn
  | .jpV0 nnn => Laws.MatchesRow.jpV0 nnn
  | .rnd x nn => Laws.MatchesRow.rnd x nn
  | .drw x y n => Laws.MatchesRow.drw x y n
  | .skp x => Laws.MatchesRow.skp x
  | .sknp x => Laws.MatchesRow.sknp x
  | .ldVxDt x => Laws.MatchesRow.ldVxDt x
  | .waitKeyEq x => Laws.MatchesRow.waitKeyEq x
  | .ldDtVx x => Laws.MatchesRow.ldDtVx x
  | .ldStVx x => Laws.MatchesRow.ldStVx x
  | .addIVx x => Laws.MatchesRow.addIVx x
  | .ldFVx x => Laws.MatchesRow.ldFVx x
  | .ldBVx x => Laws.MatchesRow.ldBVx x
  | .ldMemVx x => Laws.MatchesRow.ldMemVx x
  | .ldVxMem x => Laws.MatchesRow.ldVxMem x

theorem row_mem_opcodeTable (i : Instr) : i.row ∈ opcodeTable := by
  cases i
  all_goals
    simp only [Instr.row]
    decide

/-! ### The words of no row (R75) -/

theorem decode0_eq_error_iff (w : Word) (e : DecodeError) :
    decode0 w = .error e ↔ e = .unrecognised w ∧ w ≠ 0x00E0 ∧ w ≠ 0x00EE := by
  unfold decode0
  split_ifs with hcls hret
  · simp [hcls]
  · simp [hret]
  · simp_all [eq_comm (a := DecodeError.unrecognised w)]

theorem decode8_eq_error_iff (w : Word) (e : DecodeError) :
    decode8 w = .error e ↔
      e = .unrecognised w ∧ fieldN w ∉ [0x0, 0x1, 0x2, 0x3, 0x4, 0x5, 0x6, 0x7, 0xE] := by
  simp only [decode8]
  split_ifs
  all_goals simp_all [eq_comm (a := DecodeError.unrecognised w)]

theorem decodeE_eq_error_iff (w : Word) (e : DecodeError) :
    decodeE w = .error e ↔ e = .unrecognised w ∧ fieldNN w ∉ [0x9E, 0xA1] := by
  simp only [decodeE]
  split_ifs
  all_goals simp_all [eq_comm (a := DecodeError.unrecognised w)]

theorem decodeF_eq_error_iff (w : Word) (e : DecodeError) :
    decodeF w = .error e ↔ e = .unrecognised w ∧
      fieldNN w ∉ [0x07, 0x0A, 0x15, 0x18, 0x1E, 0x29, 0x33, 0x55, 0x65] := by
  simp only [decodeF]
  split_ifs
  all_goals simp_all [eq_comm (a := DecodeError.unrecognised w)]

/-- The low digits of the 8xyN group that no row has. -/
theorem not_mem_subOpcodes8_iff (n : BitVec 4) :
    n ∉ [0x0, 0x1, 0x2, 0x3, 0x4, 0x5, 0x6, 0x7, 0xE] ↔
      n.toNat ∈ [0x8, 0x9, 0xA, 0xB, 0xC, 0xD, 0xF] := by
  decide +revert

/-- The rejected words, leading digit by leading digit: a digit with sub-opcodes rejects the others, digit 0 all but
two words, and every other digit nothing. -/
theorem decodeWord_eq_error_iff (w : Word) (e : DecodeError) :
    decodeWord w = .error e ↔ e = .unrecognised w ∧
    ((w.toNat < 0x1000 ∧ w ≠ 0x00E0 ∧ w ≠ 0x00EE) ∨
    (w.toNat / 4096 = 0x5 ∧ w.toNat % 16 ≠ 0) ∨
    (w.toNat / 4096 = 0x8 ∧ w.toNat % 16 ∈ [0x8, 0x9, 0xA, 0xB, 0xC, 0xD, 0xF]) ∨
    (w.toNat / 4096 = 0x9 ∧ w.toNat % 16 ≠ 0) ∨
    (w.toNat / 4096 = 0xE ∧ w.toNat % 256 ∉ [0x9E, 0xA1]) ∨
    (w.toNat / 4096 = 0xF ∧
      w.toNat % 256 ∉ [0x07, 0x0A, 0x15, 0x18, 0x1E, 0x29, 0x33, 0x55, 0x65])) := by
  have hlow : w.toNat < 0x1000 ↔ w.toNat / 4096 = 0 := by omega
  rw [hlow, ← toNat_fieldP4, ← toNat_fieldN, ← toNat_fieldNN, ← not_mem_subOpcodes8_iff]
  unfold decodeWord
  split
  all_goals rename_i hp
  case h_1 => simp [hp, decode0_eq_error_iff]
  case h_9 => simp [hp, decode8_eq_error_iff]
  case h_15 => simp [hp, decodeE_eq_error_iff, ← BitVec.toNat_inj]
  case h_16 => simp [hp, decodeF_eq_error_iff, ← BitVec.toNat_inj]
  case h_6 | h_10 => split_ifs <;> simp_all [← BitVec.toNat_inj, eq_comm (a := DecodeError.unrecognised w)]
  case h_17 =>
    have := (fieldP4 w).isLt
    generalize (fieldP4 w).toNat = p at *
    interval_cases p <;> contradiction
  all_goals simp [hp]

/-- Settles O23: the error that a rejected word answers is left open. -/
theorem unrecognisedWordsAreTheListedSpaces : Obligations.UnrecognisedWordsAreTheListedSpaces := by
  intro w
  simp only [decodeWord_eq_error_iff, exists_eq_left]

/-- A row of the table that matches a word is the row of the instruction the word decodes to. -/
theorem row_of_matchesWord {r : OpcodeRow} {w : Word} (hr : r ∈ opcodeTable)
    (h : r.matchesWord w = true) : (decodeWord w).map Instr.row = .ok r := by
  obtain ⟨j, -, rfl⟩ := List.mem_map.mp hr
  exact row_decodeWord j (of_decide_eq_true h)

/-- Settles O20: a decoded word is the encoding of its instruction, hence of its row, and every row that matches a
word is the one its decoding has. -/
theorem decoderAgreesWithTheOpcodeTable : Obligations.DecoderAgreesWithTheOpcodeTable := by
  refine ⟨rfl, row_mem_opcodeTable, fun w i h => ⟨?_, fun r hr hmatch => ?_⟩,
    fun w e h => ⟨?_, fun r hr => ?_⟩⟩
  · obtain ⟨rfl, -⟩ := encodesTo_of_decodeWord h
    exact decide_eq_true (encode_matchesRow i)
  · have hrow := row_of_matchesWord hr hmatch
    rw [h] at hrow
    cases hrow
    rfl
  · exact ((decodeWord_eq_error_iff w e).mp h).1
  · refine Bool.eq_false_iff.mpr fun hmatch => ?_
    have hrow := row_of_matchesWord hr hmatch
    rw [h] at hrow
    cases hrow

/-- Settles O24: the decoder computes each of the seven. -/
theorem writtenWordsDecodeAsTheTableSays : Obligations.WrittenWordsDecodeAsTheTableSays :=
  ⟨rfl, rfl, rfl, rfl, rfl, rfl, rfl⟩

end Sys2Proof
end

section
/-! PROOFS. Ticks that run in place (spec 60_exceptions.md section 5, 41_control_flow.md R111, 45_keypad_timers.md
R214): while the fetched instruction leaves the state as it is, only the timers and SND move, and from these O34
and O57. -/

namespace Sys2Proof.Machine

open Sys2Proof

/-! ### The timers after a number of ticks -/

/-- The state after `n` timer steps and nothing else (R92, R93). -/
def timersAfter (n : Nat) (s : State) : State :=
  { s with dt := BitVec.ofNat 8 (s.dt.toNat - n),
           st := BitVec.ofNat 8 (s.st.toNat - n),
           snd := if n = 0 then s.snd else decide (n ≤ s.st.toNat) }

theorem timersAfter_zero (s : State) : timersAfter 0 s = s := by
  simp only [timersAfter, Nat.sub_zero, BitVec.ofNat_toNat, BitVec.setWidth_eq, if_true]

/-- SND after the first timer step is whether ST was nonzero, after any later one whether ST still lasted. -/
theorem snd_stepTimers_then (n : Nat) (s : State) :
    (if n = 0 then (stepTimers s).snd else decide (n ≤ (stepTimers s).st.toNat)) =
      decide (n + 1 ≤ s.st.toNat) := by
  rw [stepTimers_snd, stepTimers_st, toNat_countDown]
  split
  case isTrue h => simp only [h, byte_ne_zero_iff, Nat.zero_add, Nat.succ_le_iff]
  case isFalse h => exact decide_eq_decide.mpr (by omega)

theorem timersAfter_stepTimers (n : Nat) (s : State) :
    timersAfter n (stepTimers s) = timersAfter (n + 1) s := by
  rw [timersAfter, snd_stepTimers_then, stepTimers_dt, stepTimers_st, toNat_countDown, toNat_countDown,
    Nat.sub_sub, Nat.sub_sub, Nat.add_comm 1 n]
  rfl

/-! ### Running in place -/

/-- The fetch looks at PC, the memory and the parameters, which the timer step leaves alone. -/
theorem fetches_stepTimers {i : Instr} {s : State} (h : Fetches s i) : Fetches (stepTimers s) i := h

/-- A run of one more tick goes on from the tick's next state. -/
theorem run_succ_of_step {s t : State} (n : Nat) (h : step s = .next t) :
    core.run (n + 1) s = core.run n t := by
  have hcore : core.step s = .next t := h
  simp only [Host.Core.run, hcore]

/-- Where a fetched instruction leaves every state that agrees in PC, registers and KEY as it is, ticks move the
timers and SND alone. -/
theorem run_in_place {i : Instr} {s : State} (n : Nat) (hfault : s.fault = none) (hfetch : Fetches s i)
    (hstay : ∀ t : State, t.pc = s.pc → t.v = s.v → t.key = s.key → exec i t = .next t) :
    core.run n s = .next (timersAfter n s) := by
  induction n generalizing s with
  | zero => rw [timersAfter_zero]; rfl
  | succ n ih =>
    have hstep : step s = .next (stepTimers s) :=
      (step_of_fetches hfault hfetch).trans (hstay (stepTimers s) rfl rfl rfl)
    rw [run_succ_of_step n hstep, ← timersAfter_stepTimers]
    exact ih (s := stepTimers s) hfault (fetches_stepTimers hfetch) hstay

/-- A 1nnn at address nnn jumps to where it is (R111). -/
theorem exec_jp_self {nnn : Addr12} {s : State} (h : s.pc.toNat = nnn.toNat) :
    exec (.jp nnn) s = .next s := by
  have hpc : addrOf nnn = s.pc := BitVec.eq_of_toNat_eq ((toNat_addrOf nnn).trans h.symm)
  refine (exec_next_iff ..).mpr (?_ : s = { s with pc := addrOf nnn })
  rw [hpc]

/-- An Fx0A whose key is not held jumps to where it is (R214). -/
theorem exec_waitKeyEq_not_held {x : Reg} {s : State} (h : keyIs s (getV s x) = false) :
    exec (.waitKeyEq x) s = .next s := by
  refine (exec_next_iff ..).mpr (?_ : s = applyPolicy s (if keyIs s (getV s x) then .next else .jump s.pc))
  rw [h]
  rfl

/-- Settles O34: the jump leaves the state as it is. -/
theorem selfJumpChangesTheTimersAlone : Obligations.SelfJumpChangesTheTimersAlone :=
  fun _ _ n hfault hfetch hself =>
    run_in_place n hfault hfetch fun _ hpc _ _ => exec_jp_self (hpc ▸ hself)

/-- Settles O57: while the awaited key is not held the wait leaves the state as it is, and no key has a code of 16
or above. -/
theorem keyWaitKeepsTickingInPlace : Obligations.KeyWaitKeepsTickingInPlace := by
  intro s x n hfault hfetch hkeys
  refine run_in_place n hfault hfetch fun t _ hv hkey => exec_waitKeyEq_not_held ?_
  rw [keyIs_eq_false_iff, hkey, getV_congr hv]
  rcases hkeys with hother | hlarge
  · exact hother
  · exact fun k _ => (Nat.lt_of_lt_of_le k.isLt hlarge).ne

end Sys2Proof.Machine
end

section
/-! PROOFS. What a handler leaves unchanged, where it moves PC and when it completes (spec 40_cycle.md R97, R99;
20_memory.md R56): one frame lemma for the state, one for the registers, one for the memory and one for the stack,
and from these O12, O13, O25, O26, O27, O28 and O58. -/

namespace Sys2Proof.Machine

open Sys2Proof

/-! ### The frame of the state beside registers and PC (R99) -/

/-- What a handler leaves as it was: each element but in the instructions that write it. The timers and SND are in
`SameTimers`. -/
structure Frame (i : Instr) (s t : State) : Prop where
  index  : (∀ nnn, i ≠ .ldI nnn) → (∀ x, i ≠ .addIVx x) → (∀ x, i ≠ .ldFVx x) → t.i = s.i
  stack  : (∀ nnn, i ≠ .call nnn) → i ≠ .ret → t.stack = s.stack
  fb     : i ≠ .cls → (∀ x y n, i ≠ .drw x y n) → t.fb = s.fb
  mem    : storedBytes i = 0 → t.mem = s.mem
  draws  : (∀ x nn, i ≠ .rnd x nn) → t.draws = s.draws
  key    : t.key = s.key
  fault  : t.fault = s.fault
  params : t.params = s.params

theorem frame_of_nextForm {i : Instr} {s t : State} (h : NextForm i s t) : Frame i s t := by
  cases i
  case ret =>
    obtain ⟨_, _, -, rfl⟩ := h
    constructor <;> simp
  case call | drw | ldBVx | ldMemVx =>
    obtain ⟨-, rfl⟩ := h
    constructor <;> simp [storedBytes]
  case ldVxMem =>
    obtain ⟨-, rfl⟩ := h
    rw [setRegsFrom_eq]
    constructor <;> simp
  all_goals
    obtain rfl := h
    constructor <;> simp [twoWrites]

theorem dt_of_nextForm {i : Instr} {s t : State} (h : NextForm i s t) (hi : ∀ x, i ≠ .ldDtVx x) :
    t.dt = s.dt := by
  rcases timers_of_nextForm h with ⟨hdt, -, -⟩ | ⟨x, hx, -⟩ | ⟨-, -, rfl⟩
  · exact hdt
  · exact absurd hx (hi x)
  · rfl

theorem st_of_nextForm {i : Instr} {s t : State} (h : NextForm i s t) (hi : ∀ x, i ≠ .ldStVx x) :
    t.st = s.st := by
  rcases timers_of_nextForm h with ⟨-, hst, -⟩ | ⟨-, -, rfl⟩ | ⟨x, hx, -⟩
  · exact hst
  · rfl
  · exact absurd hx (hi x)

theorem snd_of_nextForm {i : Instr} {s t : State} (h : NextForm i s t) : t.snd = s.snd := by
  rcases timers_of_nextForm h with ⟨-, -, hsnd⟩ | ⟨-, -, rfl⟩ | ⟨-, -, rfl⟩
  · exact hsnd
  · rfl
  · rfl

/-- Settles O27: by the frame of the handlers and that of the timers. -/
theorem otherEngineStateKeepsItsValueUnlessNamed :
    Obligations.OtherEngineStateKeepsItsValueUnlessNamed := by
  intro i s t h
  have hform := (exec_next_iff ..).mp h
  have hframe := frame_of_nextForm hform
  exact ⟨hframe.index, hframe.stack, dt_of_nextForm hform, st_of_nextForm hform, snd_of_nextForm hform,
    hframe.fb⟩

/-- Settles O28: by the frame of the handlers; the handler of Cxnn draws once. -/
theorem noInstructionWritesKeyFaultOrParameters :
    Obligations.NoInstructionWritesKeyFaultOrParameters := by
  intro i s t h
  have hform := (exec_next_iff ..).mp h
  have hframe := frame_of_nextForm hform
  refine ⟨hframe.key, hframe.fault, hframe.params, hframe.draws, ?_⟩
  rintro x nn rfl
  obtain rfl := hform
  rfl

/-! ### Registers (10_state.md R20, R21) -/

/-- The listed registers V0..Vx are those up to x. -/
theorem mem_regs_iff_le (x r : Reg) :
    r ∈ (List.range (x.val + 1)).map (Fin.ofNat 16) ↔ r ≤ x := by
  simp only [List.mem_map, List.mem_range, Nat.lt_succ_iff]
  constructor
  · rintro ⟨k, hk, rfl⟩
    exact (Nat.mod_le k 16).trans hk
  · exact fun h => ⟨r.val, h, Fin.ofNat_val_eq_self r⟩

/-- A run of register writes from V0 on gives the registers up to x its bytes and leaves those above. -/
theorem getV_setRegsFrom_zero (x r : Reg) {bs : List Byte} (s : State) (hlen : bs.length = x.val + 1) :
    getV (setRegsFrom 0 bs s) r =
      if h : r ≤ x then bs[r.val]'(by rw [hlen]; exact Nat.lt_succ_of_le h) else getV s r := by
  rw [getV_setRegsFrom 0 bs s r (by omega)]
  simp only [Nat.zero_le, true_and, Nat.sub_zero, hlen, Nat.lt_succ_iff]
  rfl

theorem getV_twoWrites_other (s : State) {x y r : Reg} (a b : Byte) (hx : r ≠ x) (hy : r ≠ y) :
    getV (twoWrites s x a y b) r = getV s r := by
  rw [twoWrites, getV_applyPolicy, getV_setV_other _ _ hy, getV_setV_other _ _ hx]

theorem getV_of_nextForm {i : Instr} {s t : State} {r : Reg} (h : NextForm i s t)
    (hr : r ∉ writtenRegs i) : getV t r = getV s r := by
  cases i
  case ret =>
    obtain ⟨_, _, -, rfl⟩ := h
    rfl
  case call | ldBVx | ldMemVx =>
    obtain ⟨-, rfl⟩ := h
    rfl
  case drw =>
    obtain ⟨-, rfl⟩ := h
    exact (getV_applyPolicy ..).trans (getV_setV_other _ _ (List.ne_of_not_mem_cons hr))
  case ldVxMem x =>
    obtain ⟨-, rfl⟩ := h
    rw [getV_applyPolicy, getV_setRegsFrom_zero x r s (length_bytesFrom ..),
      dif_neg (mt (mem_regs_iff_le x r).mpr hr)]
  case addReg | sub | subn =>
    obtain rfl := h
    simp only [writtenRegs, List.mem_cons, not_or] at hr
    exact getV_twoWrites_other _ _ _ hr.1 hr.2.1
  case shr | shl =>
    obtain rfl := h
    simp only [writtenRegs, List.mem_cons, not_or] at hr
    exact getV_twoWrites_other _ _ _ hr.2.1 hr.1
  case ldImm | addImm | ldReg | orReg | andReg | xorReg | rnd | ldVxDt =>
    obtain rfl := h
    exact (getV_applyPolicy ..).trans (getV_setV_other _ _ (List.ne_of_not_mem_cons hr))
  case cls | seImm | sneImm | seReg | sneReg | skp | sknp | waitKeyEq =>
    obtain rfl := h
    exact getV_applyPolicy ..
  all_goals
    obtain rfl := h
    rfl

/-- Settles O25: by the frame of the registers. -/
theorem registersKeepTheirValueUnlessNamed : Obligations.RegistersKeepTheirValueUnlessNamed :=
  fun _ _ _ h _ hr => getV_of_nextForm ((exec_next_iff ..).mp h) hr

/-! ### Memory (20_memory.md R56) -/

/-- All that a handler can do to the memory: store a run of as many bytes as the instruction stores from I on, all
of them inside the memory. -/
theorem mem_of_nextForm {i : Instr} {s t : State} (h : NextForm i s t) :
    ∃ bs : List Byte, bs.length = storedBytes i ∧ AllInside s.i bs.length ∧
      t.mem = memAfter s.params s.i bs s.mem := by
  cases i
  case ldBVx x =>
    obtain ⟨hin, rfl⟩ := h
    exact ⟨bcdDigits (getV s x), rfl, hin, rfl⟩
  case ldMemVx x =>
    obtain ⟨hin, rfl⟩ := h
    exact ⟨regsUpTo s x, length_regsUpTo s x, (length_regsUpTo s x).symm ▸ hin, rfl⟩
  all_goals exact ⟨[], rfl, allInside_zero _, (frame_of_nextForm h).mem rfl⟩

/-- Settles O26: the bytes outside the run that the handler stores read as before. -/
theorem memoryKeepsItsBytesOutsideTheStore : Obligations.MemoryKeepsItsBytesOutsideTheStore := by
  intro i s t h a ha
  have hform := (exec_next_iff ..).mp h
  obtain ⟨bs, hlen, -, hmem⟩ := mem_of_nextForm hform
  rw [byteAt, (frame_of_nextForm hform).params, hmem]
  exact memByte_memAfter_other (hlen ▸ ha)

/-! ### The program counter (R97) -/

theorem addrOf_eq_ofNat (nnn : Addr12) : addrOf nnn = BitVec.ofNat 16 nnn.toNat :=
  (BitVec.ofNat_toNat ..).symm

theorem pc_of_jumpTarget {i : Instr} {s t : State} {a : Addr} (h : NextForm i s t)
    (ha : jumpTarget i s = some a) : t.pc = a := by
  cases i
  case jp nnn =>
    cases ha
    obtain rfl := h
    exact addrOf_eq_ofNat nnn
  case call nnn =>
    cases ha
    obtain ⟨-, rfl⟩ := h
    exact addrOf_eq_ofNat nnn
  case jpV0 nnn =>
    cases ha
    obtain rfl := h
    rw [BitVec.ofNat_add, BitVec.ofNat_toNat, BitVec.ofNat_toNat]
    rfl
  case ret =>
    obtain ⟨b, rest, hs, rfl⟩ := h
    rw [jumpTarget, hs] at ha
    cases ha
    rfl
  all_goals cases ha

/-- A conditional skip advances by one word or by two. -/
theorem applyPolicy_skipIf_pc_cases (s : State) (c : Bool) :
    (applyPolicy s (skipIf c)).pc = s.pc + 2 ∨ (applyPolicy s (skipIf c)).pc = s.pc + 4 := by
  cases c
  · exact .inl rfl
  · exact .inr rfl

theorem pc_of_no_jumpTarget {i : Instr} {s t : State} (h : NextForm i s t) (hi : jumpTarget i s = none) :
    t.pc = s.pc + 2 ∨ (isSkip i = true ∧ t.pc = s.pc + 4) ∨ (∃ x, i = .waitKeyEq x ∧ t.pc = s.pc) := by
  cases i
  case jp | call | jpV0 => cases hi
  case ret =>
    obtain ⟨b, rest, hs, -⟩ := h
    rw [jumpTarget, hs] at hi
    cases hi
  case seImm | sneImm | seReg | sneReg | skp | sknp =>
    obtain rfl := h
    exact (applyPolicy_skipIf_pc_cases s _).imp_right fun hpc => .inl ⟨rfl, hpc⟩
  case waitKeyEq x =>
    obtain rfl := h
    cases keyIs s (getV s x)
    · exact .inr (.inr ⟨x, rfl, rfl⟩)
    · exact .inl rfl
  case ldVxMem =>
    obtain ⟨-, rfl⟩ := h
    rw [setRegsFrom_eq]
    exact .inl rfl
  case drw | ldBVx | ldMemVx =>
    obtain ⟨-, rfl⟩ := h
    exact .inl rfl
  all_goals
    obtain rfl := h
    exact .inl rfl

/-- Settles O12: by whether the instruction has a target. -/
theorem programCounterMovesByOnePolicy : Obligations.ProgramCounterMovesByOnePolicy := by
  intro i s t h
  have hform := (exec_next_iff ..).mp h
  exact ⟨fun a => pc_of_jumpTarget hform, pc_of_no_jumpTarget hform⟩

/-! ### Completion (20_memory.md R53, 41_control_flow.md R110, R112) -/

theorem allInside_loaded_of_nextForm {i : Instr} {s t : State} (h : NextForm i s t) :
    AllInside s.i (loadedBytes i) := by
  cases i
  case drw | ldVxMem => exact h.1
  all_goals exact allInside_zero _

theorem allInside_stored_of_nextForm {i : Instr} {s t : State} (h : NextForm i s t) :
    AllInside s.i (storedBytes i) := by
  obtain ⟨bs, hlen, hin, -⟩ := mem_of_nextForm h
  exact hlen ▸ hin

/-- Settles O13: each clause is what its fault denies. -/
theorem everyInstructionCompletesExactlyThen : Obligations.EveryInstructionCompletesExactlyThen := by
  intro i s
  constructor
  · rintro ⟨t, h⟩
    have hform := (exec_next_iff ..).mp h
    refine ⟨allInside_loaded_of_nextForm hform, allInside_stored_of_nextForm hform, ?_, ?_⟩
    · rintro rfl hnil
      obtain ⟨a, rest, hs, -⟩ := hform
      exact List.cons_ne_nil a rest (hs.symm.trans hnil)
    · rintro nnn rfl
      exact hform.1
  · rintro ⟨hload, hstore, hret, hcall⟩
    rcases exec_cases i s with ⟨t, ht, -⟩ | ⟨hi, hs, -⟩ | ⟨⟨nnn, hi⟩, hs, -⟩ | ⟨b, hb, -⟩ | ⟨b, hb, -⟩
    · exact ⟨t, ht⟩
    · exact absurd hs (hret hi)
    · exact absurd hs (hcall nnn hi)
    · exact absurd hload (not_allInside_of_firstOutside hb)
    · exact absurd hstore (not_allInside_of_firstOutside hb)

/-! ### The invariant (10_state.md R25, R31) -/

/-- All that a handler can do to the height of the stack: one entry more where the limit leaves room, else no entry
more (R25). -/
theorem stack_of_nextForm {i : Instr} {s t : State} (h : NextForm i s t) :
    t.stack.length ≤ s.stack.length ∨
      (s.params.stackLimit ≠ some s.stack.length ∧ t.stack.length = s.stack.length + 1) := by
  cases i
  case ret =>
    obtain ⟨a, rest, hs, rfl⟩ := h
    rw [hs]
    exact .inl (Nat.le_succ _)
  case call =>
    obtain ⟨hroom, rfl⟩ := h
    exact .inr ⟨hroom, rfl⟩
  all_goals exact .inl (congrArg List.length ((frame_of_nextForm h).stack nofun nofun)).le

theorem stackWithinLimit_of_nextForm {i : Instr} {s t : State} (h : NextForm i s t)
    (hs : StackWithinLimit s) : StackWithinLimit t := by
  intro k hk
  rw [(frame_of_nextForm h).params] at hk
  have hle := hs k hk
  rcases stack_of_nextForm h with hless | ⟨hroom, hmore⟩
  · exact hless.trans hle
  · have hne : s.stack.length ≠ k := fun heq => hroom (heq ▸ hk)
    omega

theorem inv_of_nextForm {i : Instr} {s t : State} (h : NextForm i s t) (hs : s.Inv) :
    t.Inv ∧ t.params = s.params := by
  obtain ⟨hwf, hstack⟩ := hs
  obtain ⟨bs, -, hin, hmem⟩ := mem_of_nextForm h
  have hparams := (frame_of_nextForm h).params
  refine ⟨⟨?_, stackWithinLimit_of_nextForm h hstack⟩, hparams⟩
  rw [hparams, hmem]
  exact memAfter_wf hin hwf

theorem inv_stepTimers {s : State} (h : s.Inv) : (stepTimers s).Inv := h

/-- Settles O58: the timer step keeps the invariant, and so do the handler of a decoded word and the no-op of any
other. -/
theorem stepKeepsTheInvariant : Obligations.StepKeepsTheInvariant := by
  intro s t hs h
  obtain ⟨-, w, -, ⟨i, -, hexec⟩ | ⟨e, -, rfl⟩⟩ := step_next_cases h
  · exact inv_of_nextForm (s := stepTimers s) ((exec_next_iff ..).mp hexec) (inv_stepTimers hs)
  · exact ⟨hs, rfl⟩

end Sys2Proof.Machine
end

section
/-! PROOFS. The faults of a tick and the tick as the host sees it (spec 60_exceptions.md R230, R232-R234, R236;
40_cycle.md R91, R100, R101): what the fetch and the handlers raise, and from these O6, O8, O14, O16, O17 and
O18. -/

namespace Sys2Proof.Machine

open Sys2Proof

/-! ### The first address outside -/

/-- There is one first address outside at most: of two, neither comes before the other. -/
theorem firstOutside_unique {a b c : Addr} {n : Nat} (hb : FirstOutside a n b) (hc : FirstOutside a n c) :
    b = c := by
  obtain ⟨j, -, rfl, hjout, hjin⟩ := hb
  obtain ⟨k, -, rfl, hkout, hkin⟩ := hc
  rcases Nat.lt_trichotomy j k with hlt | rfl | hgt
  · exact absurd (hkin j hlt) (Nat.not_lt.mpr hjout)
  · rfl
  · exact absurd (hjin k hgt) (Nat.not_lt.mpr hkout)

/-- No instruction both loads and stores. -/
theorem loadedBytes_or_storedBytes_eq_zero (i : Instr) : loadedBytes i = 0 ∨ storedBytes i = 0 := by
  cases i
  case drw | ldVxMem => exact .inr rfl
  all_goals exact .inl rfl

/-- The loads and the stores of an instruction are not both outside. -/
theorem not_firstOutside_both {i : Instr} {a b c : Addr} (hb : FirstOutside a (loadedBytes i) b)
    (hc : FirstOutside a (storedBytes i) c) : False := by
  rcases loadedBytes_or_storedBytes_eq_zero i with h | h
  · exact not_firstOutside_zero a b (h ▸ hb)
  · exact not_firstOutside_zero a c (h ▸ hc)

/-! ### Memory faults (R232, R236) -/

/-- The fetch faults exactly with its first address outside (R91). -/
theorem fetch_eq_error_iff (s : State) (r : Fault) :
    fetch s = .error r ↔ ∃ b, FirstOutside s.pc 2 b ∧ r = .memoryOutOfRange s.pc b .fetch := by
  rcases fetch_cases s with ⟨hin, hw⟩ | ⟨b, hb, hfault⟩
  · simp only [hw, reduceCtorEq, false_iff]
    rintro ⟨b, hb, -⟩
    exact not_allInside_of_firstOutside hb hin
  · simp only [hfault, Except.error.injEq]
    constructor
    · rintro rfl
      exact ⟨b, hb, rfl⟩
    · rintro ⟨c, hc, rfl⟩
      rw [firstOutside_unique hb hc]

/-- A handler faults for memory exactly with the first of its data addresses outside: the fault case of `exec_cases`
that applies is the one of its loads or of its stores. -/
theorem exec_eq_memoryOutOfRange_iff (i : Instr) (s : State) (a b : Addr) (k : Access) :
    exec i s = .fault (.memoryOutOfRange a b k) ↔
      a = s.pc ∧ ((k = .read ∧ FirstOutside s.i (loadedBytes i) b) ∨
        (k = .write ∧ FirstOutside s.i (storedBytes i) b)) := by
  rcases exec_cases i s with ⟨t, ht, hform⟩ | ⟨rfl, -, hr⟩ | ⟨⟨nnn, rfl⟩, -, hr⟩ | ⟨c, hc, hr⟩ | ⟨c, hc, hr⟩
  · have hload : ¬ FirstOutside s.i (loadedBytes i) b := fun h =>
      not_allInside_of_firstOutside h (allInside_loaded_of_nextForm hform)
    have hstore : ¬ FirstOutside s.i (storedBytes i) b := fun h =>
      not_allInside_of_firstOutside h (allInside_stored_of_nextForm hform)
    simp [ht, hload, hstore]
  · simp [hr, loadedBytes, storedBytes, not_firstOutside_zero]
  · simp [hr, loadedBytes, storedBytes, not_firstOutside_zero]
  · simp only [hr, Host.Outcome.fault.injEq, Fault.memoryOutOfRange.injEq]
    constructor
    · rintro ⟨rfl, rfl, rfl⟩
      exact ⟨rfl, .inl ⟨rfl, hc⟩⟩
    · rintro ⟨rfl, ⟨rfl, hb⟩ | ⟨rfl, hb⟩⟩
      · exact ⟨rfl, firstOutside_unique hc hb, rfl⟩
      · exact (not_firstOutside_both hc hb).elim
  · simp only [hr, Host.Outcome.fault.injEq, Fault.memoryOutOfRange.injEq]
    constructor
    · rintro ⟨rfl, rfl, rfl⟩
      exact ⟨rfl, .inr ⟨rfl, hc⟩⟩
    · rintro ⟨rfl, ⟨rfl, hb⟩ | ⟨rfl, hb⟩⟩
      · exact (not_firstOutside_both hb hc).elim
      · exact ⟨rfl, firstOutside_unique hc hb, rfl⟩

/-- Settles O16: the fault is that of the fetch or that of the handler, which runs after the timer step on the same
PC and I. -/
theorem memoryOutOfRangeIsTheFirstAddressOutside :
    Obligations.MemoryOutOfRangeIsTheFirstAddressOutside := by
  intro s a b k hfault
  simp only [step_eq_fault_iff hfault, fetch_eq_error_iff, exec_eq_memoryOutOfRange_iff, stepTimers_pc,
    stepTimers_i]
  constructor
  · rintro (⟨c, hc, ⟨⟩⟩ | ⟨i, hi, rfl, hdata⟩)
    · exact ⟨rfl, .inl ⟨rfl, hc⟩⟩
    · exact ⟨rfl, .inr ⟨i, hi, hdata⟩⟩
  · rintro ⟨rfl, ⟨rfl, hb⟩ | ⟨i, hi, hdata⟩⟩
    · exact .inl ⟨b, hb, rfl⟩
    · exact .inr ⟨i, hi, rfl, hdata⟩

/-- A tick whose fetch has an address outside faults with the first of them. -/
theorem step_of_fetch_outside {s : State} {b : Addr} (hfault : s.fault = none)
    (hb : FirstOutside s.pc 2 b) : step s = .fault (.memoryOutOfRange s.pc b .fetch) :=
  step_of_fetch_error hfault ((fetch_eq_error_iff ..).mpr ⟨b, hb, rfl⟩)

/-- Settles O8: the first address outside is PC, or PC + 1 when PC is the last address of the memory. -/
theorem fetchOutsideTheMemoryFaults : Obligations.FetchOutsideTheMemoryFaults := by
  refine fun s hfault => ⟨fun hpc => ?_, fun hpc => ?_⟩
  · exact step_of_fetch_outside hfault ((firstOutside_succ ..).mpr (.inl ⟨rfl, hpc⟩))
  · have hfirst : FirstOutside s.pc 2 0x1000 := by
      rw [hpc, firstOutside_succ, firstOutside_succ]
      exact .inr ⟨by decide, .inl ⟨by decide, by decide⟩⟩
    rw [step_of_fetch_outside hfault hfirst, hpc]

/-! ### Stack overflow (R233) -/

/-- The fetch faults for its memory accesses alone (R232). -/
theorem fetch_ne_stackOverflow (s : State) (a : Addr) : fetch s ≠ .error (.stackOverflow a) := by
  simp [fetch_eq_error_iff]

/-- Of the handlers, only that of 2nnn overflows, on a stack at its limit and with its PC. -/
theorem exec_eq_stackOverflow_iff (i : Instr) (s : State) (a : Addr) :
    exec i s = .fault (.stackOverflow a) ↔
      (∃ nnn, i = .call nnn) ∧ s.params.stackLimit = some s.stack.length ∧ a = s.pc := by
  constructor
  · intro h
    rcases exec_cases i s with ⟨t, hr, -⟩ | ⟨-, -, hr⟩ | ⟨hi, hfull, hr⟩ | ⟨b, -, hr⟩ | ⟨b, -, hr⟩
    all_goals rw [hr] at h
    case inr.inr.inl =>
      cases h
      exact ⟨hi, hfull, rfl⟩
    all_goals cases h
  · rintro ⟨⟨nnn, rfl⟩, hfull, rfl⟩
    exact exec_call_full nnn hfull

/-- Settles O17: the fetch raises no overflow, and the timer step before the handler changes neither the stack, its
limit nor PC. -/
theorem stackOverflowIsRaisedAtTheLimitAlone : Obligations.StackOverflowIsRaisedAtTheLimitAlone := by
  intro s a hfault
  simp only [step_eq_fault_iff hfault, fetch_ne_stackOverflow, false_or, exec_eq_stackOverflow_iff,
    stepTimers_stack, stepTimers_pc, stepTimers_params]
  constructor
  · rintro ⟨_, hi, ⟨nnn, rfl⟩, hfull⟩
    exact ⟨⟨nnn, hi⟩, hfull⟩
  · rintro ⟨⟨nnn, hi⟩, hfull⟩
    exact ⟨_, hi, ⟨nnn, rfl⟩, hfull⟩

/-! ### No refusal (R234) -/

theorem exec_ne_refused (i : Instr) (s : State) (r : Refusal) : exec i s ≠ .refused r := by
  rcases exec_cases i s with ⟨t, h, -⟩ | ⟨-, -, h⟩ | ⟨-, -, h⟩ | ⟨b, -, h⟩ | ⟨b, -, h⟩
  all_goals simp [h]

/-- Settles O14: a recorded fault and a fault of the fetch are faults, a handler never refuses, and an unrecognised
word is a no-op. -/
theorem stepNeverRefuses : Obligations.StepNeverRefuses := by
  intro s r
  cases hfault : s.fault with
  | some q => simp [step_of_fault hfault]
  | none =>
    cases hfetch : fetch s with
    | error q => simp [step_of_fetch_error hfault hfetch]
    | ok w =>
      rw [step_of_fetch_ok hfault hfetch]
      cases hd : decodeWord w with
      | error e => simp [runWord_error hd]
      | ok i =>
        rw [runWord_ok hd]
        exact exec_ne_refused i _ r

/-! ### The tick -/

/-- Settles O6: the fetch reads the two bytes, and the handler runs after the timer step. -/
theorem stepRunsTheDecodedInstruction : Obligations.StepRunsTheDecodedInstruction := by
  intro s i hfault hpc hd
  exact step_of_fetches hfault ⟨_, fetch_inside hpc, (decode_two _ _ i []).mp hd⟩

/-! ### `tick()` as the host sees it (R101, R243) -/

theorem hostTick_of_fault {s : State} {r : Fault} (h : s.fault = some r) : hostTick s = s := by
  simp only [hostTick, h]

theorem hostTick_of_step_fault {s : State} {r : Fault} (h : s.fault = none) (hr : step s = .fault r) :
    hostTick s = faultedState s r := by
  simp only [hostTick, h, hr]

theorem hostTick_of_step_next {s t : State} (ht : step s = .next t) : hostTick s = t := by
  obtain ⟨hfault, -⟩ := step_next_cases ht
  simp only [hostTick, hfault, ht]

/-- A tick that does not fault records no fault. -/
theorem fault_of_step {s t : State} (h : step s = .next t) : t.fault = none := by
  obtain ⟨hfault, w, -, ⟨i, -, hexec⟩ | ⟨e, -, rfl⟩⟩ := step_next_cases h
  · exact (frame_of_nextForm ((exec_next_iff ..).mp hexec)).fault.trans hfault
  · exact hfault

/-- Settles O18: one lemma for each thing that `tick()` can meet. -/
theorem faultIsRecordedAndStopsTheEngine : Obligations.FaultIsRecordedAndStopsTheEngine := by
  refine fun s => ⟨fun r h => ⟨step_of_fault h, hostTick_of_fault h⟩, fun r h hr => ?_,
    fun t ht => ⟨hostTick_of_step_next ht, fault_of_step ht⟩, rfl⟩
  rw [hostTick_of_step_fault h hr]
  rfl

end Sys2Proof.Machine
end

section
/-! PROOFS. Reset and the host's operations (spec 70_reset_and_hazards.md R261-R263, 60_exceptions.md R240, R243):
what each gives, that each keeps the invariant where no fault is recorded, and from these O1, O2, O3, O4 and
O59. -/

namespace Sys2Proof.Machine

open Sys2Proof

/-! ### The reset state (R36, R261) -/

theorem initByte_font (p : Config.Params) {a : Nat} (h : a < 80) : initByte p a = p.font[a] := dif_pos h

theorem initByte_above_font (p : Config.Params) {a : Nat} (h : 80 ≤ a) :
    initByte p a = initImageByte p.memInit a := dif_neg (Nat.not_lt.mpr h)

/-- Settles O1: each element is written out in `State.resetWith`, and the empty memory reads its reset contents. -/
theorem resetGivesTheTableOfValues : Obligations.ResetGivesTheTableOfValues := by
  refine ⟨rfl, fun p => ⟨fun x => ?_, rfl, rfl, rfl, rfl, rfl, rfl, rfl, rfl, pixel_dark,
    fun _ => initByte_font p, fun _ => initByte_above_font p⟩⟩
  exact Vector.getElem_replicate x.isLt

theorem inv_resetWith (p : Config.Params) : (State.resetWith p).Inv :=
  ⟨rfl, fun k _ => Nat.zero_le k⟩

/-- Settles O2: the memory lists nothing and the stack is empty. -/
theorem resetStateMeetsTheInvariant : Obligations.ResetStateMeetsTheInvariant :=
  ⟨inv_resetWith _, inv_resetWith⟩

/-- Settles O3: `reset()` is the reset state by definition, whose font region reads FONT. -/
theorem hostResetRestoresTheFontAndAllState : Obligations.HostResetRestoresTheFontAndAllState :=
  fun s => ⟨fun _ => initByte_font s.params, rfl⟩

/-! ### `load` and `set_key` (R240, R263) -/

/-- The memory has room for 3584 bytes from the program start on. -/
theorem load_fits_iff (rom : List Byte) :
    Config.programStart.toNat + rom.length ≤ Config.memSize ↔ rom.length ≤ 3584 := by
  have hstart : Config.programStart.toNat = 512 := rfl
  have hsize : Config.memSize = 4096 := rfl
  omega

theorem hostLoad_fits {rom : List Byte} (s : State) (h : rom.length ≤ 3584) :
    hostLoad rom s = .next { s with mem := storeRun s.params 0x200 rom s.mem } :=
  if_pos ((load_fits_iff rom).mpr h)

theorem hostLoad_too_long {rom : List Byte} (s : State) (h : 3584 < rom.length) :
    hostLoad rom s = .refused (.loadPastEnd rom.length) :=
  if_neg (mt (load_fits_iff rom).mp (Nat.not_le.mpr h))

theorem hostSetKey_code (s : State) (k : Fin 16) :
    hostSetKey (some k.val) s = .next { s with key := some k } := dif_pos k.isLt

theorem hostSetKey_out_of_range (s : State) {c : Nat} (h : 16 ≤ c) :
    hostSetKey (some c) s = .refused (.keyCodeOutOfRange c) := dif_neg (Nat.not_lt.mpr h)

/-- Settles O4: a load is one run of stores from 0x200 on. -/
theorem loadAndSetKeyWriteTheirTargetsAlone : Obligations.LoadAndSetKeyWriteTheirTargetsAlone :=
  fun s => ⟨
    fun rom h => ⟨_, hostLoad_fits s h, memByte_storeRun s.params 0x200 rom s.mem,
      memByte_storeRun_other s.params 0x200 rom s.mem⟩,
    fun _ => hostLoad_too_long s, rfl, hostSetKey_code s, fun _ => hostSetKey_out_of_range s⟩

/-! ### The invariant under the host's operations (R243) -/

/-- The invariant holds unless a fault is recorded: after a fault the state is unspecified (D2). -/
def InvUnlessFaulted (s : State) : Prop := s.fault = none → s.Inv

theorem hostTick_keeps_inv {s : State} (hs : InvUnlessFaulted s) :
    InvUnlessFaulted (hostTick s) ∧ (hostTick s).params = s.params := by
  cases hfault : s.fault with
  | some r => exact (hostTick_of_fault hfault).symm ▸ ⟨hs, rfl⟩
  | none =>
    cases hstep : step s with
    | next t =>
      obtain ⟨hinv, hparams⟩ := stepKeepsTheInvariant s t (hs hfault) hstep
      exact (hostTick_of_step_next hstep).symm ▸ ⟨fun _ => hinv, hparams⟩
    | fault r => exact (hostTick_of_step_fault hfault hstep).symm ▸ ⟨nofun, rfl⟩
    | refused r => exact absurd hstep (stepNeverRefuses s r)

theorem hostLoad_keeps_inv {rom : List Byte} {s t : State} (h : hostLoad rom s = .next t)
    (hs : InvUnlessFaulted s) : InvUnlessFaulted t ∧ t.params = s.params := by
  by_cases hlen : rom.length ≤ 3584
  · rw [hostLoad_fits s hlen] at h
    cases h
    refine ⟨fun hfault => ?_, rfl⟩
    obtain ⟨hwf, hstack⟩ := hs hfault
    exact ⟨storeRun_wf ((load_fits_iff rom).mpr hlen) hwf, hstack⟩
  · rw [hostLoad_too_long s (Nat.lt_of_not_le hlen)] at h
    cases h

theorem hostSetKey_keeps_inv {code : Option Nat} {s t : State} (h : hostSetKey code s = .next t)
    (hs : InvUnlessFaulted s) : InvUnlessFaulted t ∧ t.params = s.params := by
  have hkey : ∃ k, t = { s with key := k } := by
    unfold hostSetKey at h
    split at h
    · exact ⟨_, (Host.Outcome.next.inj h).symm⟩
    · split at h
      · exact ⟨_, (Host.Outcome.next.inj h).symm⟩
      · cases h
  obtain ⟨k, rfl⟩ := hkey
  exact ⟨hs, rfl⟩

theorem hostApply_keeps_inv {e : HostEvent} {s t : State} (h : hostApply e s = .next t)
    (hs : InvUnlessFaulted s) : InvUnlessFaulted t ∧ t.params = s.params := by
  cases e with
  | tick =>
    cases h
    exact hostTick_keeps_inv hs
  | reset =>
    cases h
    exact ⟨fun _ => inv_resetWith s.params, rfl⟩
  | load rom => exact hostLoad_keeps_inv h hs
  | setKey code => exact hostSetKey_keeps_inv h hs

/-- Settles O59: by induction on the operations. -/
theorem hostOperationsKeepTheInvariant : Obligations.HostOperationsKeepTheInvariant := by
  intro f e n hs hrun
  induction n with
  | zero => exact ⟨hs, rfl⟩
  | succ n ih =>
    obtain ⟨hinv, hparams⟩ := ih fun k hk => hrun k (Nat.lt_succ_of_lt hk)
    obtain ⟨hinv', hparams'⟩ := hostApply_keeps_inv (hrun n (Nat.lt_succ_self n)) hinv
    exact ⟨hinv', hparams'.trans hparams⟩

end Sys2Proof.Machine
end

section
/-! PROOFS. Jumps, call and return, and the register skips (spec 41_control_flow.md R110-R112, R115-R117), and from
these O29, O30, O31 and O33. -/

namespace Sys2Proof

theorem decodeWord_jp {w : Word} (h : w &&& 0xF000 = 0x1000) : decodeWord w = .ok (.jp (fieldNNN w)) := by
  rw [decodeWord, fieldP4_of_mask h]
  rfl

theorem decodeWord_call {w : Word} (h : w &&& 0xF000 = 0x2000) :
    decodeWord w = .ok (.call (fieldNNN w)) := by
  rw [decodeWord, fieldP4_of_mask h]
  rfl

theorem decodeWord_jpV0 {w : Word} (h : w &&& 0xF000 = 0xB000) :
    decodeWord w = .ok (.jpV0 (fieldNNN w)) := by
  rw [decodeWord, fieldP4_of_mask h]
  rfl

end Sys2Proof

namespace Sys2Proof.Machine

open Sys2Proof

/-- A handler whose next state has PC at `a` and is else the same completes, and changes no register. -/
theorem exec_of_nextForm_jump {i : Instr} {s : State} {a : Addr} {n : Nat}
    (h : NextForm i s { s with pc := a }) (ha : a.toNat = n) :
    ∃ t, exec i s = .next t ∧ t.pc.toNat = n ∧ t.v = s.v :=
  ⟨_, (exec_next_iff i s _).mpr h, ha, rfl⟩

/-- The sum of a byte and a 12-bit address is far below 65536, so it does not wrap. -/
theorem toNat_addendOf_add_addrOf (b : Byte) (nnn : Addr12) :
    (addendOf b + addrOf nnn).toNat = b.toNat + nnn.toNat := by
  have hb := b.isLt
  have hn := nnn.isLt
  rw [BitVec.toNat_add, toNat_addendOf, toNat_addrOf]
  exact Nat.mod_eq_of_lt (by omega)

/-- Settles O29: both handlers move PC alone. -/
theorem jumpsGoToTheirTargets : Obligations.JumpsGoToTheirTargets :=
  ⟨fun _ => decodeWord_jp, fun _ => decodeWord_jpV0, fun nnn s =>
    ⟨exec_of_nextForm_jump rfl (toNat_addrOf nnn),
      exec_of_nextForm_jump rfl (toNat_addendOf_add_addrOf (getV s 0) nnn)⟩⟩

/-- Settles O30: by whether the stack has an entry. -/
theorem returnPopsTheMostRecentEntry : Obligations.ReturnPopsTheMostRecentEntry :=
  ⟨(decodeWord_eq_ret_iff _).mpr rfl, fun _ =>
    ⟨fun _ _ h => ⟨_, exec_ret_cons h, rfl, rfl, rfl⟩, exec_ret_nil⟩⟩

/-- Settles O31: the pushed entry is the one that a return on this stack pops. -/
theorem callPushesTheReturnAddress : Obligations.CallPushesTheReturnAddress := by
  refine ⟨fun _ => decodeWord_call, fun nnn s => ⟨fun hroom => ?_, exec_call_full nnn⟩⟩
  exact ⟨_, exec_call_room nnn hroom, toNat_addrOf nnn, rfl, rfl,
    fun u hu => ⟨_, exec_ret_cons hu, rfl, rfl⟩⟩

/-- Settles O33: both handlers report a conditional skip and do nothing else; 9xy0 tests the negation. -/
theorem registerSkipsCompareTheRegisters : Obligations.RegisterSkipsCompareTheRegisters := by
  refine ⟨fun _ => decodeWord_seReg, fun _ => decodeWord_sneReg, fun x y s => ⟨?_, ?_⟩⟩
  · obtain ⟨t, hexec, hv, hpc⟩ := exec_of_nextForm_skipIf (i := .seReg x y) (s := s) rfl
    exact ⟨t, hexec, hv, by simpa only [decide_eq_true_iff] using hpc⟩
  · obtain ⟨t, hexec, hv, hpc⟩ := exec_of_nextForm_skipIf (i := .sneReg x y) (s := s) rfl
    exact ⟨t, hexec, hv, by simpa only [decide_eq_true_iff, ne_eq, ite_not] using hpc⟩

end Sys2Proof.Machine
end

section
/-! PROOFS. Logic, sums, differences, shifts and the random byte (spec 42_arithmetic.md R145-R154): the outcome of a
handler that writes two registers in order, the flags and results as numbers, and from these O37, O38, O39, O40 and
O41. -/

namespace Sys2Proof.Machine

open Sys2Proof

/-! ### One and two writes -/

/-- A handler that writes one register completes with its byte there, and every other register keeps its value. -/
theorem exec_writes_of_nextForm_setV {i : Instr} {s : State} {x : Reg} {b : Byte}
    (h : NextForm i s (applyPolicy (setV s x b) .next)) :
    ∃ t, exec i s = .next t ∧ t.pc = s.pc + 2 ∧ (∀ r, r ≠ x → getV t r = getV s r) ∧ getV t x = b := by
  obtain ⟨t, hexec, hpc, hregs⟩ := exec_of_nextForm_setV h
  exact ⟨t, hexec, hpc, fun r hr => (hregs r).trans (if_neg hr), (hregs x).trans (if_pos rfl)⟩

/-- Settles O37: each handler writes V[x] alone, with the combination of the bytes, and that is bit by bit. -/
theorem logicCombinesEachBit : Obligations.LogicCombinesEachBit := by
  refine fun x y s => ⟨?_, ?_, ?_⟩
  · obtain ⟨t, hexec, hpc, hother, hx⟩ := exec_writes_of_nextForm_setV (i := .orReg x y) (s := s) rfl
    exact ⟨t, hexec, hpc, hother, fun b => by rw [hx, BitVec.getLsbD_or]⟩
  · obtain ⟨t, hexec, hpc, hother, hx⟩ := exec_writes_of_nextForm_setV (i := .andReg x y) (s := s) rfl
    exact ⟨t, hexec, hpc, hother, fun b => by rw [hx, BitVec.getLsbD_and]⟩
  · obtain ⟨t, hexec, hpc, hother, hx⟩ := exec_writes_of_nextForm_setV (i := .xorReg x y) (s := s) rfl
    exact ⟨t, hexec, hpc, hother, fun b => by rw [hx, BitVec.getLsbD_xor]⟩

/-- A handler whose next state has two registers written in order and PC advanced completes: the later write stays,
the earlier one unless it was to the same register, and every other register keeps its value (D3). -/
theorem exec_of_nextForm_twoWrites {i : Instr} {s : State} {x y : Reg} {a b : Byte}
    (h : NextForm i s (twoWrites s x a y b)) :
    ∃ t, exec i s = .next t ∧ t.pc = s.pc + 2 ∧ (x ≠ y → getV t x = a) ∧ getV t y = b ∧
      ∀ r, r ≠ x → r ≠ y → getV t r = getV s r := by
  refine ⟨_, (exec_next_iff i s _).mpr h, rfl, fun hxy => ?_, ?_, fun r => getV_twoWrites_other s a b⟩
  · rw [twoWrites, getV_applyPolicy, getV_setV_other _ _ hxy, getV_setV_same]
  · rw [twoWrites, getV_applyPolicy, getV_setV_same]

theorem flagByte_decide (p : Prop) [Decidable p] : flagByte (decide p) = if p then 1 else 0 := by
  simp only [flagByte, decide_eq_true_iff]

/-- Settles O38: the sum is written first and the carry last. -/
theorem addRegistersSetsTheCarry : Obligations.AddRegistersSetsTheCarry := by
  intro x y s
  obtain ⟨t, hexec, hpc, hfirst, hlast, hother⟩ :=
    exec_of_nextForm_twoWrites (i := .addReg x y) (s := s) rfl
  exact ⟨t, hexec, hpc, fun hx => by rw [hfirst hx, BitVec.toNat_add], hlast.trans (flagByte_decide _),
    hother⟩

theorem toNat_byte_sub (a b : Byte) : (a - b).toNat = (a.toNat + 256 - b.toNat) % 256 := by
  have hb := b.isLt
  rw [BitVec.toNat_sub]
  congr 1
  omega

/-- Settles O39: the difference is written first and the flag last, with the operands exchanged in 8xy7. -/
theorem subtractionsSetNoBorrow : Obligations.SubtractionsSetNoBorrow := by
  refine fun x y s => ⟨?_, ?_⟩
  · obtain ⟨t, hexec, hpc, hfirst, hlast, hother⟩ :=
      exec_of_nextForm_twoWrites (i := .sub x y) (s := s) rfl
    exact ⟨t, hexec, hpc, fun hx => by rw [hfirst hx, toNat_byte_sub], hlast.trans (flagByte_decide _),
      hother⟩
  · obtain ⟨t, hexec, hpc, hfirst, hlast, hother⟩ :=
      exec_of_nextForm_twoWrites (i := .subn x y) (s := s) rfl
    exact ⟨t, hexec, hpc, fun hx => by rw [hfirst hx, toNat_byte_sub], hlast.trans (flagByte_decide _),
      hother⟩

theorem toNat_shiftRightFlag (a : Byte) : (shiftRightFlag a).toNat = a.toNat % 2 :=
  (BitVec.toNat_and ..).trans (Nat.and_one_is_mod _)

/-- Bit 7 in place is 0x80 exactly for the bytes from 128 on. -/
theorem shiftLeftFlag_eq (a : Byte) : shiftLeftFlag a = if 128 ≤ a.toNat then 0x80 else 0x00 := by
  have hbit : a.getLsbD 7 = decide (128 ≤ a.toNat) := BitVec.msb_eq_decide a
  refine (BitVec.and_twoPow a 7).trans ?_
  simp only [hbit, decide_eq_true_iff]
  rfl

/-- Settles O40: the flag is written first and the result last, so that with x = F the result stays. -/
theorem shiftsMoveTheOutgoingBitToVF : Obligations.ShiftsMoveTheOutgoingBitToVF := by
  refine fun x y s => ⟨?_, ?_⟩
  · obtain ⟨t, hexec, hpc, hfirst, hlast, hother⟩ :=
      exec_of_nextForm_twoWrites (i := .shr x y) (s := s) rfl
    refine ⟨t, hexec, hpc, ?_, fun hx => ?_, fun r hx hf => hother r hf hx⟩
    · rw [hlast, BitVec.toNat_ushiftRight, Nat.shiftRight_one]
    · rw [hfirst hx.symm, toNat_shiftRightFlag]
  · obtain ⟨t, hexec, hpc, hfirst, hlast, hother⟩ :=
      exec_of_nextForm_twoWrites (i := .shl x y) (s := s) rfl
    refine ⟨t, hexec, hpc, ?_, fun hx => ?_, fun r hx hf => hother r hf hx⟩
    · rw [hlast, BitVec.toNat_shiftLeft, Nat.shiftLeft_eq]
    · rw [hfirst hx.symm, shiftLeftFlag_eq]

/-- Settles O41: the handler draws one byte and writes V[x] alone, with the draw under the mask nn. -/
theorem randomIsTheMaskedDraw : Obligations.RandomIsTheMaskedDraw := by
  intro x nn s
  obtain ⟨t, ht⟩ : ∃ t, NextForm (.rnd x nn) s t := ⟨_, rfl⟩
  have hx : getV t x = Config.randomByte s.draws &&& nn := by
    obtain rfl := ht
    exact (getV_applyPolicy ..).trans (getV_setV_same ..)
  refine ⟨t, (exec_next_iff ..).mpr ht, by obtain rfl := ht; rfl, fun b => ?_, ?_, by obtain rfl := ht; rfl,
    fun r hr => getV_of_nextForm ht (by simpa [writtenRegs] using hr)⟩
  · rw [hx, BitVec.getLsbD_and]
  · rw [hx, BitVec.toNat_and]
    exact Nat.and_le_right

end Sys2Proof.Machine
end

section
/-! PROOFS. The sum into I, the timer accesses and the key wait (spec 43_index_memory.md R172, 45_keypad_timers.md
R213-R216, 40_cycle.md R92, R93), and from these O43, O55 and O56. -/

namespace Sys2Proof

theorem decodeWord_ldVxDt {w : Word} (h : w &&& 0xF0FF = 0xF007) :
    decodeWord w = .ok (.ldVxDt (fieldX w)) := by
  rw [decodeWord_groupF (fieldP4_of_maskNN h), decodeF, fieldNN_of_maskNN h]
  rfl

theorem decodeWord_waitKeyEq {w : Word} (h : w &&& 0xF0FF = 0xF00A) :
    decodeWord w = .ok (.waitKeyEq (fieldX w)) := by
  rw [decodeWord_groupF (fieldP4_of_maskNN h), decodeF, fieldNN_of_maskNN h]
  rfl

theorem decodeWord_ldDtVx {w : Word} (h : w &&& 0xF0FF = 0xF015) :
    decodeWord w = .ok (.ldDtVx (fieldX w)) := by
  rw [decodeWord_groupF (fieldP4_of_maskNN h), decodeF, fieldNN_of_maskNN h]
  rfl

theorem decodeWord_ldStVx {w : Word} (h : w &&& 0xF0FF = 0xF018) :
    decodeWord w = .ok (.ldStVx (fieldX w)) := by
  rw [decodeWord_groupF (fieldP4_of_maskNN h), decodeF, fieldNN_of_maskNN h]
  rfl

end Sys2Proof

namespace Sys2Proof.Machine

open Sys2Proof

theorem toNat_add_addendOf (a : Addr) (b : Byte) :
    (a + addendOf b).toNat = (a.toNat + b.toNat) % 65536 := by
  rw [BitVec.toNat_add, toNat_addendOf]

/-- Settles O43: the handler writes I alone. -/
theorem addToIndexWrapsAtSixteenBits : Obligations.AddToIndexWrapsAtSixteenBits :=
  fun x s => exec_of_nextForm_index rfl (toNat_add_addendOf s.i (getV s x))

/-- A fetched instruction whose handler completes in every state completes in a tick. -/
theorem step_completes_of_fetches {i : Instr} {s : State} (hfault : s.fault = none) (hi : Fetches s i)
    (hexec : ∃ t, exec i (stepTimers s) = .next t) : ∃ t, step s = .next t := by
  rwa [step_of_fetches hfault hi]

/-- Settles O55: the handlers by their forms, and in a tick the same handlers after the timer step. -/
theorem timerAccessReadsAndWritesTheTimers : Obligations.TimerAccessReadsAndWritesTheTimers := by
  refine ⟨fun _ => decodeWord_ldVxDt, fun _ => decodeWord_ldDtVx, fun _ => decodeWord_ldStVx,
    fun x s => ⟨exec_of_nextForm_setV rfl, ⟨_, rfl, rfl, rfl, rfl⟩, ⟨_, rfl, rfl, rfl, rfl, rfl⟩⟩,
    fun x s hfault => ⟨fun hf => ?_, fun hf => ?_, fun hf => ?_⟩⟩
  · obtain ⟨t, ht⟩ := step_completes_of_fetches hfault hf ⟨_, rfl⟩
    obtain ⟨-, -, hread⟩ := delayTimerCountsDownOncePerTick s t ht
    exact ⟨t, ht, hread x hf⟩
  · obtain ⟨t, ht⟩ := step_completes_of_fetches hfault hf ⟨_, rfl⟩
    obtain ⟨-, hwrite, -⟩ := delayTimerCountsDownOncePerTick s t ht
    exact ⟨t, ht, hwrite x hf⟩
  · obtain ⟨t, ht⟩ := step_completes_of_fetches hfault hf ⟨_, rfl⟩
    obtain ⟨hsnd, -, hwrite⟩ := soundFlagIsOnForExactlyTheTicksCounted.1 s t ht
    exact ⟨t, ht, hwrite x hf, hsnd⟩

/-- Settles O56: the policy is the next instruction when the key comparison holds, else a jump in place. -/
theorem keyWaitRepeatsUntilTheAwaitedKey : Obligations.KeyWaitRepeatsUntilTheAwaitedKey := by
  refine ⟨fun _ => decodeWord_waitKeyEq, fun x s => ?_⟩
  refine ⟨_, (exec_next_iff (.waitKeyEq x) s _).mpr rfl, applyPolicy_v .., fun hnot => ?_, fun hheld => ?_⟩
  · rw [(keyIs_eq_false_iff s _).mpr hnot]
    rfl
  · rw [(keyIs_eq_true_iff s _).mpr hheld]
    rfl

end Sys2Proof.Machine
end

section
/-! PROOFS. Memory accesses and transfers (spec 20_memory.md R53, R54; 43_index_memory.md R174-R176): the bytes that
a store leaves and a load reads, the canonical form as the one form of what a memory reads as, and from these O44,
O45, O46, O47, O48 and O49. -/

namespace Sys2Proof.Machine

open Sys2Proof

/-! ### Stores from I on (R174, R175) -/

/-- After a run of stores from I on, the k-th address from I holds the k-th byte. -/
theorem byteAt_stored {s : State} {bs : List Byte} (pc : Addr) {k : Nat} (hlen : bs.length ≤ 65536)
    (hk : k < bs.length) :
    byteAt { s with mem := memAfter s.params s.i bs s.mem, pc := pc } (s.i + BitVec.ofNat 16 k).toNat =
      bs[k] :=
  memByte_memAfter hlen hk

/-- The three digits of a byte have its decimal value. -/
theorem bcdDigits_eq (b : Byte) : ∃ h d u : Byte, bcdDigits b = [h, d, u] ∧
    h.toNat * 100 + d.toNat * 10 + u.toNat = b.toNat ∧ h.toNat ≤ 2 ∧ d.toNat ≤ 9 ∧ u.toNat ≤ 9 := by
  have hb := b.isLt
  refine ⟨_, _, _, rfl, ?_⟩
  simp only [BitVec.toNat_ofNat]
  omega

/-- Settles O44: the stored run is the three digits. -/
theorem decimalStoreWritesTheThreeDigits : Obligations.DecimalStoreWritesTheThreeDigits := by
  intro x s hin
  obtain ⟨h, d, u, hdigits, hvalue, hh, hd, hu⟩ := bcdDigits_eq (getV s x)
  have hexec := exec_ldBVx_inside x hin
  rw [hdigits] at hexec
  have hbyte : ∀ k (hk : k < 3), byteAt { s with mem := memAfter s.params s.i [h, d, u] s.mem, pc := s.pc + 2 }
      (s.i + BitVec.ofNat 16 k).toNat = [h, d, u][k] := fun k hk => byteAt_stored (s.pc + 2) (by simp) hk
  refine ⟨_, h, d, u, hexec, rfl, rfl, rfl, ?_, hbyte 1 (by decide), hbyte 2 (by decide), hvalue, hh, hd, hu,
    fun a h0 h1 h2 => memoryKeepsItsBytesOutsideTheStore _ _ _ hexec a fun k hk => ?_⟩
  · have hfirst := hbyte 0 (by decide)
    rwa [addr_zero] at hfirst
  · rcases k with - | - | - | k
    · rwa [addr_zero]
    · exact h1
    · exact h2
    · exact absurd hk (by simp [storedBytes])

/-- Settles O45: the stored run is V0..Vx. -/
theorem storeRegistersWritesTheRun : Obligations.StoreRegistersWritesTheRun := by
  intro x s hin
  have hexec := exec_ldMemVx_inside x hin
  refine ⟨_, hexec, rfl, rfl, rfl, fun r hr => ?_, fun a ha =>
    memoryKeepsItsBytesOutsideTheStore _ _ _ hexec a fun k hk => ha k (Nat.le_of_lt_succ hk)⟩
  have hx := x.isLt
  have hlen := length_regsUpTo s x
  have hrlen : r.val < (regsUpTo s x).length := hlen ▸ Nat.lt_succ_of_le hr
  rw [byteAt_stored (s.pc + 2) (by omega) hrlen, getElem_regsUpTo, Fin.ofNat_val_eq_self]

/-! ### Loads from I on (R176) -/

theorem getElem_bytesFrom (s : State) (a : Addr) {n k : Nat} (h : k < (bytesFrom s a n).length) :
    (bytesFrom s a n)[k] = byteAt s (a + BitVec.ofNat 16 k).toNat := by
  simp only [bytesFrom, List.getElem_map, List.getElem_range]

/-- Settles O46: the run of register writes takes the bytes from I on. -/
theorem loadRegistersReadsTheRun : Obligations.LoadRegistersReadsTheRun := by
  intro x s hin
  have hexec := exec_ldVxMem_inside x hin
  have hframe := frame_of_nextForm ((exec_next_iff ..).mp hexec)
  refine ⟨_, hexec, ?_, hframe.index nofun nofun nofun, hframe.mem rfl, fun r => ?_⟩
  · rw [applyPolicy_next_pc, setRegsFrom_eq]
  · rw [getV_applyPolicy, getV_setRegsFrom_zero x r s (length_bytesFrom ..)]
    simp only [getElem_bytesFrom, dite_eq_ite]

/-- Settles O47: the load reads the addresses that the store wrote. -/
theorem loadAfterStoreGivesTheRegistersBack : Obligations.LoadAfterStoreGivesTheRegistersBack := by
  intro x s t u hstore hmem hparams hindex
  have hin := allInside_stored_of_nextForm ((exec_next_iff ..).mp hstore)
  obtain ⟨t', hstore', -, hi, -, hbytes, -⟩ := storeRegistersWritesTheRun x s hin
  obtain rfl : t' = t := Host.Outcome.next.inj (hstore'.symm.trans hstore)
  have hui : u.i = s.i := hindex.trans hi
  obtain ⟨w, hload, -, -, -, hregs⟩ := loadRegistersReadsTheRun x u (hui ▸ hin)
  refine ⟨w, hload, fun r hr => ?_⟩
  rw [hregs r, if_pos hr, hui, byteAt_congr hmem hparams, hbytes r hr]

/-! ### Single accesses (R53, R54) -/

/-- A read depends on the byte at its address and, where it faults, on PC. -/
theorem readByte_congr {s t : State} (k : Access) {a : Addr} (hpc : s.pc = t.pc)
    (hbyte : byteAt s a.toNat = byteAt t a.toNat) : readByte s k a = readByte t k a := by
  rw [readByte, readByte, hpc, hbyte]

/-- Settles O48: by whether the address is inside the memory. -/
theorem readAfterWriteGivesTheByte : Obligations.ReadAfterWriteGivesTheByte := by
  refine fun s a b => ⟨fun hin => ⟨_, writeByte_inside b hin, fun k => ?_, rfl, fun k c hc => ?_⟩,
    fun hout => ⟨writeByte_outside b hout, fun k => readByte_outside k hout⟩⟩
  · rw [readByte_inside k hin, byteAt, memByte_store, if_pos rfl]
  · refine readByte_congr k rfl ?_
    rw [byteAt, memByte_store, if_neg fun heq => hc (BitVec.eq_of_toNat_eq heq).symm]
    rfl

/-! ### The canonical form (log entry 7) -/

/-- A listed byte is an entry of the list. -/
theorem mem_of_memLookup {m : Memory} {a : Nat} {b : Byte} (h : memLookup m a = some b) : (a, b) ∈ m := by
  induction m with
  | nil => cases h
  | cons e m ih =>
    obtain ⟨k, c⟩ := e
    rw [memLookup] at h
    split at h
    case isTrue hk =>
      cases h
      exact hk ▸ List.mem_cons_self
    case isFalse => exact List.mem_cons_of_mem _ (ih h)

/-- In the canonical form an address outside the memory is not listed. -/
theorem memLookup_outside {p : Config.Params} {m : Memory} (hm : Memory.wf p m = true) {a : Nat}
    (ha : Config.memSize ≤ a) : memLookup m a = none := by
  cases h : memLookup m a with
  | none => rfl
  | some b =>
    obtain ⟨-, hentries⟩ := (Memory.wf_iff p m).mp hm
    obtain ⟨hlt, -⟩ := hentries _ (mem_of_memLookup h)
    exact absurd hlt (Nat.not_lt.mpr ha)

/-- In the canonical form an address is listed exactly when it reads as other than the reset contents, so what it
reads as says what is listed. -/
theorem memLookup_eq_of_wf {p : Config.Params} {m : Memory} (hm : Memory.wf p m = true) (a : Nat) :
    memLookup m a = if memByte p m a = initByte p a then none else some (memByte p m a) := by
  cases h : memLookup m a with
  | none => simp [memByte, h]
  | some b =>
    obtain ⟨-, hentries⟩ := (Memory.wf_iff p m).mp hm
    obtain ⟨-, hne⟩ := hentries _ (mem_of_memLookup h)
    simp [memByte, h, hne]

theorem memLookup_cons_self (k : Nat) (b : Byte) (m : Memory) : memLookup ((k, b) :: m) k = some b :=
  if_pos rfl

theorem memLookup_cons_other {k a : Nat} (b : Byte) (m : Memory) (h : k ≠ a) :
    memLookup ((k, b) :: m) a = memLookup m a := if_neg h

/-- Two rising lists that list the same have the same first entry, for an address below the first of one is not
listed there; and then the same rest. -/
theorem eq_of_memLookup_eq {lo lo' : Nat} {m m' : Memory} (hm : memRisingFrom lo m = true)
    (hm' : memRisingFrom lo' m' = true) (h : ∀ a, memLookup m a = memLookup m' a) : m = m' := by
  induction m generalizing lo lo' m' with
  | nil =>
    cases m' with
    | nil => rfl
    | cons e m' =>
      have hnone := h e.1
      rw [memLookup_cons_self] at hnone
      cases hnone
  | cons e m ih =>
    obtain ⟨k, b⟩ := e
    cases m' with
    | nil =>
      have hnone := h k
      rw [memLookup_cons_self] at hnone
      cases hnone
    | cons e' m' =>
      obtain ⟨k', b'⟩ := e'
      simp only [memRisingFrom, Bool.and_eq_true, decide_eq_true_eq] at hm hm'
      obtain ⟨-, hm⟩ := hm
      obtain ⟨-, hm'⟩ := hm'
      have hk := h k
      have hk' := h k'
      rw [memLookup_cons_self] at hk hk'
      rcases Nat.lt_trichotomy k k' with hlt | rfl | hgt
      · rw [memLookup_cons_other b' m' (by omega), memLookup_below hm' (by omega)] at hk
        cases hk
      · rw [memLookup_cons_self] at hk
        cases hk
        refine congrArg _ (ih hm hm' fun a => ?_)
        by_cases ha : k = a
        · rw [← ha, memLookup_below hm (Nat.lt_succ_self k), memLookup_below hm' (Nat.lt_succ_self k)]
        · rw [← memLookup_cons_other b m ha, ← memLookup_cons_other b m' ha, h a]
      · rw [memLookup_cons_other b m (by omega), memLookup_below hm (by omega)] at hk'
        cases hk'

/-- Settles O49: what a canonical memory reads as says what it lists, and what it lists says what it is. -/
theorem canonicalMemoriesThatReadAlikeAreEqual : Obligations.CanonicalMemoriesThatReadAlikeAreEqual := by
  intro p m m' hm hm' h
  obtain ⟨hrising, -⟩ := (Memory.wf_iff p m).mp hm
  obtain ⟨hrising', -⟩ := (Memory.wf_iff p m').mp hm'
  refine eq_of_memLookup_eq hrising hrising' fun a => ?_
  rcases Nat.lt_or_ge a Config.memSize with ha | ha
  · rw [memLookup_eq_of_wf hm, memLookup_eq_of_wf hm', h a ha]
  · rw [memLookup_outside hm ha, memLookup_outside hm' ha]

end Sys2Proof.Machine
end

section
/-! PROOFS. A sprite drawn twice, and the draw instruction (spec 44_display.md R191-R194, 95_test_vectors.md W1), and
from these O52 and O53. -/

namespace Sys2Proof.Machine

open Sys2Proof

/-! ### Drawing twice -/

/-- At each pixel a sprite of at most 32 rows either has a bit, which the draw adds to whatever the buffer holds, or
leaves every buffer as it is. -/
theorem pixel_drawSprite_cases {rows : List Byte} (hlen : rows.length ≤ 32) (ox oy : Byte) (x y : Nat) :
    (∃ r, ∃ hr : r < rows.length, ∃ b < 8, pixelKey (ox.toNat + b) (oy.toNat + r) = pixelKey x y ∧
      ∀ fb, pixel (drawSprite ox oy rows fb).1 x y = (pixel fb x y ^^ spriteBit rows[r] b)) ∨
    ∀ fb, pixel (drawSprite ox oy rows fb).1 x y = pixel fb x y := by
  by_cases h : ∃ r, ∃ _ : r < rows.length, ∃ b < 8, pixelKey (ox.toNat + b) (oy.toNat + r) = pixelKey x y
  · obtain ⟨r, hr, b, hb, hkey⟩ := h
    refine .inl ⟨r, hr, b, hb, hkey, fun fb => ?_⟩
    rw [← pixel_congr _ hkey, ← pixel_congr fb hkey]
    exact pixel_drawSprite_reached hlen ox oy fb hr hb
  · refine .inr fun fb => pixel_drawSprite_unreached hlen ox oy fb fun r hr b hb hkey => h ?_
    exact ⟨r, hr, b, hb, hkey⟩

/-- Each bit of the sprite is added twice, and so cancels (R191). -/
theorem drawSprite_twice {rows : List Byte} (hlen : rows.length ≤ 32) (ox oy : Byte) (fb : FrameBuffer) :
    (drawSprite ox oy rows (drawSprite ox oy rows fb).1).1 = fb := by
  refine frameBuffer_ext fun x _ y _ => ?_
  rcases pixel_drawSprite_cases hlen ox oy x y with ⟨r, hr, b, -, -, h⟩ | h
  · rw [h, h, Bool.xor_assoc, Bool.xor_self, Bool.xor_false]
  · rw [h, h]

/-- The second draw meets a lit pixel with a set bit exactly where the first draw lit it (R192). -/
theorem drawSprite_twice_collides_iff {rows : List Byte} (hlen : rows.length ≤ 32) (ox oy : Byte)
    (fb : FrameBuffer) :
    (drawSprite ox oy rows (drawSprite ox oy rows fb).1).2 = true ↔
      ∃ x < 64, ∃ y < 32, pixel fb x y = false ∧ pixel (drawSprite ox oy rows fb).1 x y = true := by
  rw [drawSprite_collides_iff hlen]
  constructor
  · rintro ⟨r, hr, b, hb, hlit, hbit⟩
    refine ⟨_, Nat.mod_lt (ox.toNat + b) (by decide), _, Nat.mod_lt (oy.toNat + r) (by decide), ?_⟩
    rw [pixel_mod, pixel_mod]
    refine ⟨?_, hlit⟩
    rwa [pixel_drawSprite_reached hlen ox oy fb hr hb, hbit, Bool.xor_true, Bool.not_eq_true'] at hlit
  · rintro ⟨x, -, y, -, hdark, hlit⟩
    rcases pixel_drawSprite_cases hlen ox oy x y with ⟨r, hr, b, hb, hkey, h⟩ | h
    · refine ⟨r, hr, b, hb, (pixel_congr _ hkey).trans hlit, ?_⟩
      rwa [h, hdark, Bool.false_xor] at hlit
    · rw [h, hdark] at hlit
      cases hlit

/-- Settles O52: 15 rows are at most 32. -/
theorem drawingTwiceRestoresTheScreen : Obligations.DrawingTwiceRestoresTheScreen := by
  intro ox oy rows fb hlen
  have hlen32 : rows.length ≤ 32 := hlen.trans (by decide)
  exact ⟨drawSprite_twice hlen32 ox oy fb, drawSprite_twice_collides_iff hlen32 ox oy fb⟩

/-! ### The draw instruction -/

/-- Settles O53: the rows are the bytes from I on, and VF is written last; a sprite of no rows draws nothing. -/
theorem drawInstructionDrawsTheBytesAtTheIndex : Obligations.DrawInstructionDrawsTheBytesAtTheIndex := by
  intro x y n s hin
  refine ⟨_, bytesFrom s s.i n, exec_drw_inside x y hin, rfl, rfl, rfl, length_bytesFrom ..,
    fun k hk => getElem_bytesFrom s s.i hk, rfl, ?_, ?_, fun r hr => ?_⟩
  · rw [getV_applyPolicy, getV_setV_same]
    rfl
  · rintro rfl
    exact ⟨(getV_applyPolicy ..).trans (getV_setV_same ..), rfl⟩
  · exact (getV_applyPolicy ..).trans (getV_setV_other _ _ hr)

end Sys2Proof.Machine
end
